-- ==== Sys2Proof/Word.lean ====
section
/-!
DEFINITION. The word types of the FBCU: a 64-bit mask, an 8-bit symbol or input byte, a 16-bit command word.
-/

namespace Sys2Proof

/-- A 64-bit mask, W = N_SYM = 64 (R6); bit `i` is membership of the symbol at alphabet position `i` (R9, R22).
The data operand and the response data are the same width (R40). -/
abbrev Mask := BitVec 64

/-- A symbol or an input byte, SYM_W = 8 bits (R6). -/
abbrev Byte := BitVec 8

/-- A command word, `cmd_op` (R60). -/
abbrev CmdWord := BitVec 16

end Sys2Proof
end

