-- ==== Sys2Proof/Syntax.lean ====
section
/-!
DEFINITION. The commands of the FBCU as syntax: one constructor of `Instr` per row of spec/opcode_table.json, with the
operands the row's rule gives it; the command as the host sends it; the error codes.
-/

namespace Sys2Proof

/-- A mask register number, `m0` to `m3` (R22, R61). -/
inductive MReg where
  | m0 | m1 | m2 | m3
deriving DecidableEq, Repr

/-- The error codes of R161 that a command can raise (code 0 is "no error", codes 4 to 7 are never recorded). -/
inductive ErrCode where
  /-- OPC in 0x10 to 0x1F (R65). -/
  | illop
  /-- A nonzero field that the opcode does not use (R63). -/
  | rsvd
  /-- IMM5 outside the opcode's range (R64). -/
  | range
deriving DecidableEq, Repr

/-- One command as the host presents it: the pair (cmd_op, cmd_data) (R41, R60). -/
structure Command where
  op : CmdWord
  data : Mask
deriving DecidableEq, Repr, Inhabited

/-- The commands (R62). A command that uses cmd_data (ENCB, LDM: R70) carries it as its operand `data`; IMM5 operands
are the unsigned 5-bit field (R61), whose range `WellFormed` checks (R64). -/
inductive Instr where
  /-- NOP (R140). -/
  | nop
  /-- ENCCLR (R85). -/
  | encclr
  /-- ENCB n, data (R86). -/
  | encb (n : BitVec 5) (data : Mask)
  /-- ENCST rd (R87). -/
  | encst (rd : MReg)
  /-- LDM rd, data (R141). -/
  | ldm (rd : MReg) (data : Mask)
  /-- RDM ra (R142). -/
  | rdm (ra : MReg)
  /-- AND rd, ra, rb (R121). -/
  | and (rd ra rb : MReg)
  /-- OR rd, ra, rb (R122). -/
  | or (rd ra rb : MReg)
  /-- XOR rd, ra, rb (R123). -/
  | xor (rd ra rb : MReg)
  /-- NOT rd, ra (R124). -/
  | not (rd ra : MReg)
  /-- ANDN rd, ra, rb (R125). -/
  | andn (rd ra rb : MReg)
  /-- CARD ra (R126). -/
  | card (ra : MReg)
  /-- DEC ra (R101). -/
  | dec (ra : MReg)
  /-- RDDEC k (R102). -/
  | rddec (k : BitVec 5)
  /-- RDSR s (R143). -/
  | rdsr (s : BitVec 5)
  /-- CLRSTAT (R144). -/
  | clrstat
  /-- The reserved opcodes 0x10 to 0x1F: every word with bit 15 set, `bits` being its other 15 bits (R65). -/
  | reserved (bits : BitVec 15)
deriving DecidableEq, Repr

end Sys2Proof
end

