-- ==== Sys2Proof/WellFormed.lean ====
section
/-!
DEFINITION. Which `Instr` terms are commands of the opcode map: the IMM5 ranges of R64.
-/

namespace Sys2Proof

/-- The IMM5 ranges of R64: ENCB takes 0 to 8, RDDEC 0 to 7, RDSR 0 to 5. Every other operand is legal at every
value (R61, R141). -/
def Instr.wellFormed (i : Instr) : Bool :=
  match i with
  | .encb n _ => n ≤ 8#5
  | .rddec k => k ≤ 7#5
  | .rdsr s => s ≤ 5#5
  | .nop => true
  | .encclr => true
  | .encst _ => true
  | .ldm _ _ => true
  | .rdm _ => true
  | .and _ _ _ => true
  | .or _ _ _ => true
  | .xor _ _ _ => true
  | .not _ _ => true
  | .andn _ _ _ => true
  | .card _ => true
  | .dec _ => true
  | .clrstat => true
  | .reserved _ => true

/-- `i` is a command of the opcode map with its operands in range (R62, R64). -/
abbrev Instr.WellFormed (i : Instr) : Prop := i.wellFormed = true

end Sys2Proof
end

