-- ==== Sys2Proof/Decode.lean ====
section
/-!
DEFINITION. The 16-bit command word: its fields (R60), the opcode map (R62), the decoder (R67) and the encoder (R68).
-/

namespace Sys2Proof

/-! ### Fields (R60) -/

/-- The field OPC, bits 15:11. -/
def opcOf (w : CmdWord) : BitVec 5 := w.extractLsb' 11 5

/-- The field RD, bits 10:9. -/
def rdOf (w : CmdWord) : BitVec 2 := w.extractLsb' 9 2

/-- The field RA, bits 8:7. -/
def raOf (w : CmdWord) : BitVec 2 := w.extractLsb' 7 2

/-- The field RB, bits 6:5. -/
def rbOf (w : CmdWord) : BitVec 2 := w.extractLsb' 5 2

/-- The field IMM5, bits 4:0. -/
def immOf (w : CmdWord) : BitVec 5 := w.extractLsb' 0 5

/-- The register a 2-bit index names (R61). -/
def regOfIndex (i : BitVec 2) : MReg :=
  if i = 0#2 then .m0 else if i = 1#2 then .m1 else if i = 2#2 then .m2 else .m3

/-- The 2-bit index of a register (R61). -/
def regIndex (r : MReg) : BitVec 2 :=
  match r with
  | .m0 => 0#2
  | .m1 => 1#2
  | .m2 => 2#2
  | .m3 => 3#2

/-! ### The opcode map (R62) -/

/-- The sixteen defined operations, one per row of R62's map. -/
inductive Operation where
  | nop | encclr | encb | encst | ldm | rdm | and | or | xor | not | andn | card | dec | rddec | rdsr | clrstat
deriving DecidableEq, Repr

/-- One row of R62's map: the operation, its OPC, its match and mask over the 16-bit word. -/
structure OpcodeRow where
  operation : Operation
  opc : BitVec 5
  pattern : CmdWord
  mask : CmdWord
deriving DecidableEq, Repr

/-- R62's map, row by row. -/
def opcodeMap : List OpcodeRow :=
  [ ⟨.nop, 0x00, 0x0000, 0xFFFF⟩,
    ⟨.encclr, 0x01, 0x0800, 0xFFFF⟩,
    ⟨.encb, 0x02, 0x1000, 0xFFE0⟩,
    ⟨.encst, 0x03, 0x1800, 0xF9FF⟩,
    ⟨.ldm, 0x04, 0x2000, 0xF9FF⟩,
    ⟨.rdm, 0x05, 0x2800, 0xFE7F⟩,
    ⟨.and, 0x06, 0x3000, 0xF81F⟩,
    ⟨.or, 0x07, 0x3800, 0xF81F⟩,
    ⟨.xor, 0x08, 0x4000, 0xF81F⟩,
    ⟨.not, 0x09, 0x4800, 0xF87F⟩,
    ⟨.andn, 0x0A, 0x5000, 0xF81F⟩,
    ⟨.card, 0x0B, 0x5800, 0xFE7F⟩,
    ⟨.dec, 0x0C, 0x6000, 0xFE7F⟩,
    ⟨.rddec, 0x0D, 0x6800, 0xFFE0⟩,
    ⟨.rdsr, 0x0E, 0x7000, 0xFFE0⟩,
    ⟨.clrstat, 0x0F, 0x7800, 0xFFFF⟩ ]

/-- The row of R62's map with a given OPC; there is none exactly for the reserved opcodes (R65). -/
def opcodeRow? (opc : BitVec 5) : Option OpcodeRow := opcodeMap.find? fun row => row.opc == opc

/-! ### The decoder (R67) -/

/-- The command of an operation, its operands read from the word's fields and from cmd_data; an IMM5 outside the
operation's range is rejected with RANGE (R64). -/
def commandOf (o : Operation) (w : CmdWord) (data : Mask) : Except ErrCode Instr :=
  let rd := regOfIndex (rdOf w)
  let ra := regOfIndex (raOf w)
  let rb := regOfIndex (rbOf w)
  let imm := immOf w
  match o with
  | .nop => .ok .nop
  | .encclr => .ok .encclr
  | .encb => if 8#5 < imm then .error .range else .ok (.encb imm data)
  | .encst => .ok (.encst rd)
  | .ldm => .ok (.ldm rd data)
  | .rdm => .ok (.rdm ra)
  | .and => .ok (.and rd ra rb)
  | .or => .ok (.or rd ra rb)
  | .xor => .ok (.xor rd ra rb)
  | .not => .ok (.not rd ra)
  | .andn => .ok (.andn rd ra rb)
  | .card => .ok (.card ra)
  | .dec => .ok (.dec ra)
  | .rddec => if 7#5 < imm then .error .range else .ok (.rddec imm)
  | .rdsr => if 5#5 < imm then .error .range else .ok (.rdsr imm)
  | .clrstat => .ok .clrstat

/-- R67, total on every word: a reserved opcode first (R65; it is a row of the opcode table, so it decodes to the
constructor `reserved`, whose meaning is R67's Error(ILLOP)), then RSVD for a nonzero unused field (R63), then RANGE. -/
def decode (w : CmdWord) (data : Mask) : Except ErrCode Instr :=
  match opcodeRow? (opcOf w) with
  | none => .ok (.reserved (w.extractLsb' 0 15))
  | some row => if w &&& row.mask ≠ row.pattern then .error .rsvd else commandOf row.operation w data

/-- The error code R67 returns for a word, if it returns one. -/
def errorOf (w : CmdWord) (data : Mask) : Option ErrCode :=
  match decode w data with
  | .error e => some e
  | .ok (.reserved _) => some .illop
  | .ok _ => none

/-! ### The encoder (R68) -/

/-- cmd_op = (OPC << 11) | (RD << 9) | (RA << 7) | (RB << 5) | IMM5 (R68). -/
def assembleWord (opc : BitVec 5) (rd ra rb : BitVec 2) (imm : BitVec 5) : CmdWord :=
  (opc.setWidth 16 <<< 11) ||| (rd.setWidth 16 <<< 9) ||| (ra.setWidth 16 <<< 7) ||| (rb.setWidth 16 <<< 5)
    ||| imm.setWidth 16

/-- The command word of an instruction, unused fields 0 (R68); a reserved opcode's word is bit 15 over its other 15
bits (R65). -/
def encodeWord (i : Instr) : CmdWord :=
  match i with
  | .nop => assembleWord 0x00 0 0 0 0
  | .encclr => assembleWord 0x01 0 0 0 0
  | .encb n _ => assembleWord 0x02 0 0 0 n
  | .encst rd => assembleWord 0x03 (regIndex rd) 0 0 0
  | .ldm rd _ => assembleWord 0x04 (regIndex rd) 0 0 0
  | .rdm ra => assembleWord 0x05 0 (regIndex ra) 0 0
  | .and rd ra rb => assembleWord 0x06 (regIndex rd) (regIndex ra) (regIndex rb) 0
  | .or rd ra rb => assembleWord 0x07 (regIndex rd) (regIndex ra) (regIndex rb) 0
  | .xor rd ra rb => assembleWord 0x08 (regIndex rd) (regIndex ra) (regIndex rb) 0
  | .not rd ra => assembleWord 0x09 (regIndex rd) (regIndex ra) 0 0
  | .andn rd ra rb => assembleWord 0x0A (regIndex rd) (regIndex ra) (regIndex rb) 0
  | .card ra => assembleWord 0x0B 0 (regIndex ra) 0 0
  | .dec ra => assembleWord 0x0C 0 (regIndex ra) 0 0
  | .rddec k => assembleWord 0x0D 0 0 0 k
  | .rdsr s => assembleWord 0x0E 0 0 0 s
  | .clrstat => assembleWord 0x0F 0 0 0 0
  | .reserved bits => 0x8000#16 ||| bits.setWidth 16

/-- The data operand an instruction carries; 0 for a command that ignores cmd_data (R70, R71). -/
def encodeData (i : Instr) : Mask :=
  match i with
  | .encb _ data => data
  | .ldm _ data => data
  | .nop => 0
  | .encclr => 0
  | .encst _ => 0
  | .rdm _ => 0
  | .and _ _ _ => 0
  | .or _ _ _ => 0
  | .xor _ _ _ => 0
  | .not _ _ => 0
  | .andn _ _ _ => 0
  | .card _ => 0
  | .dec _ => 0
  | .rddec _ => 0
  | .rdsr _ => 0
  | .clrstat => 0
  | .reserved _ => 0

/-- The command that carries an instruction (R60, R68). -/
def encode (i : Instr) : Command := { op := encodeWord i, data := encodeData i }

/-! ### Words as the opcode table numbers them -/

/-- The command whose bits are `w`, numbered as the opcode table numbers them: cmd_op is bits 15:0, cmd_data the bits
above it; every bit from `nbits` on is 0. -/
def tableCommand (nbits w : Nat) : Command :=
  let bits := w % 2 ^ nbits
  { op := BitVec.ofNat 16 bits, data := BitVec.ofNat 64 (bits / 2 ^ 16) }

/-- What the decoder reads from a table word; none where it rejects the word (RSVD, RANGE). -/
def decodeTableWord (nbits w : Nat) : Option Instr :=
  match decode (tableCommand nbits w).op (tableCommand nbits w).data with
  | .ok i => some i
  | .error _ => none

end Sys2Proof
end

