-- ==== Sys2Proof/Machine/Registers.lean ====
section
/-!
DEFINITION. The FBCU's own registers as plain data: R20's without RSP.
-/

namespace Sys2Proof.Machine

/-- The mask register file M[0..3], 64 bits each (R22). -/
structure MaskFile where
  m0 : Mask
  m1 : Mask
  m2 : Mask
  m3 : Mask
deriving DecidableEq, Repr

/-- STATUS.ERR and STATUS.ECODE (R28). ECODE is kept at its 3 bits; its values 4 to 7 are never recorded (R161). -/
structure Status where
  err : Bool
  ecode : BitVec 3
deriving DecidableEq, Repr

/-- What R46's function reads and writes beside the response. `State` holds each as a field of its own; this record
puts them side by side, to compare them and to name what a free value may depend on. -/
structure Registers where
  m : MaskFile
  acc : Mask
  cnt : BitVec 16
  card : BitVec 7
  dlen : BitVec 7
  dout : Vector Byte 64
  status : Status
deriving DecidableEq, Repr

end Sys2Proof.Machine
end

