-- ==== Sys2Proof/Config.lean ====
section
/-!
DEFINITION. What a build of the FBCU fixes (the parameters of R6) and the free values: the constants the spec leaves
open, which are opaque here, so that no proof can see what they are.
-/

namespace Sys2Proof

/-- The parameters a build fixes (R6 to R8, R183). A table that is not injective and a MAX_LEN outside 1 to 65535
cannot be put into a `Build`: that is how the model refuses them (R7). -/
structure Build where
  /-- ALPHABET: the symbol at each position 0 to 63. -/
  alphabet : Vector Byte 64
  /-- R7: no two positions hold the same symbol. -/
  alphabet_injective : ∀ i j : Fin 64, alphabet[i] = alphabet[j] → i = j
  /-- MAX_LEN: bytes accepted per encode session, a 16-bit value (R6, R30). -/
  maxLen : BitVec 16
  /-- R6: MAX_LEN is at least 1. -/
  maxLen_pos : 1 ≤ maxLen.toNat
deriving DecidableEq, Repr

/-- ALPHABET[i] as R8 uses it: `symbol_at`. -/
def Build.symbolAt (b : Build) (i : Fin 64) : Byte := b.alphabet[i]

/-- Takes the parameters as arguments and refuses an ALPHABET that is not injective (R7) and a MAX_LEN outside
1 to 65535 (R6). -/
def Build.make? (alphabet : Vector Byte 64) (maxLen : Nat) : Option Build :=
  if hInj : ∀ i j : Fin 64, alphabet[i] = alphabet[j] → i = j then
    if hLen : 1 ≤ maxLen ∧ maxLen ≤ 65535 then
      some
        { alphabet := alphabet
          alphabet_injective := hInj
          maxLen := BitVec.ofNat 16 maxLen
          maxLen_pos := by simp; omega }
    else none
  else none

namespace Config

/-- N_SYM = 64 (R6). -/
def nSym : Nat := 64

/-- NMR = 4 (R6). -/
def nmr : Nat := 4

/-- LANES = 8 (R6). -/
def lanes : Nat := 8

/-- MAX_LEN's default, 256 (R6). -/
def defaultMaxLen : BitVec 16 := 256#16

/-- TEST_ALPHABET, position `i` holding 0x3F + i: the spec's table for examples and test vectors only, NOT the
hardware's (D27). -/
def testAlphabet : Vector Byte 64 := Vector.ofFn fun i => BitVec.ofNat 8 (0x3F + i.val)

theorem testAlphabet_injective (i j : Fin 64) (h : testAlphabet[i] = testAlphabet[j]) : i = j := by
  have h' := congrArg BitVec.toNat h
  simp [testAlphabet] at h'
  omega

/-- The spec's example build: TEST_ALPHABET with a given MAX_LEN. It serves the spec's worked examples; no meaning
mentions it. -/
def testBuild (maxLen : BitVec 16) (h : 1 ≤ maxLen.toNat) : Build :=
  { alphabet := testAlphabet
    alphabet_injective := testAlphabet_injective
    maxLen := maxLen
    maxLen_pos := h }

/-- FREE VALUE: an arbitrary legal build (R6: ALPHABET is OPEN, MAX_LEN is a parameter). Its argument only says that
some build exists. -/
opaque anyBuild [Inhabited Build] : Build

/-- The build of the machine that `State.reset` describes: some legal build, nothing else known of it. -/
def build : Build := @anyBuild ⟨testBuild defaultMaxLen (by decide)⟩

/-- FREE VALUE: by how many cycles the response of `cmd`, the `n`-th command accepted, is later than the one cycle R45
asks for. R190: finite, otherwise an implementation choice, which may differ per command and per mask; so it takes the
command and all the registers at acceptance. DESIGN CHOICE (log entry 4), unsafe: two acceptances that agree in all of
these arguments have the same latency; R190 does not say so. -/
opaque extraCycles (n : Nat) (cmd : Command) (regs : Machine.Registers) (b : Build) : Nat

/-- FREE VALUE: the command accepted at the `n`-th acceptance if the host changed cmd_op or cmd_data before it (R52, I5:
which command is accepted is not specified); `cmds` are the commands the host presented. DESIGN CHOICE (log entry 5),
unsafe: two acceptances that agree in all of these arguments accept the same command; R52 does not say so. -/
opaque unstableCommand (n : Nat) (cmds : List Command) (regs : Machine.Registers) (b : Build) : Command

end Config

end Sys2Proof
end

