-- ==== Sys2Proof/Machine/State.lean ====
section
/-!
DEFINITION. The state of the FBCU as plain data (R20, R32), the host's side of the ports, the reasons a step can stop,
and the state right after reset (R34).
-/

namespace Sys2Proof.Machine

/-! ### Why a step can stop -/

/-- Nothing in the spec stops the FBCU: an erroneous command completes like any other (R160), and the unit has no
halt, no trap and no address to fault on (R48, R53). So there is no fault; nobody raises one. -/
inductive Fault where
deriving DecidableEq, Repr

/-- The one refusal the interface asks for; no arm of `exec` and no meaning answers with it, since every row of the
opcode table has its meaning. -/
inductive Refusal where
  /-- Raised by an arm of `exec` whose instruction has no meaning yet: none. Safe: the model stops where the hardware
  goes on. -/
  | notModelled (mnemonic : String)
deriving DecidableEq, Repr

/-! ### Architectural state (R20) -/

/-- RSP: the response not yet taken by the host (R32, R43). -/
structure Response where
  pending : Bool
  data : Mask
  err : Bool
deriving DecidableEq, Repr

/-! ### The handshake (R40 to R45) -/

/-- A command accepted and still executing (R42). `wait` is how many more cycles pass before the cycle that ends it,
the internal progress of R32, which is seen as latency only. -/
structure InFlight where
  cmd : Command
  wait : Nat
deriving DecidableEq, Repr

/-- What the host has done on the command port since the last acceptance: the side of R52's duty to hold a command
stable until it is accepted. -/
inductive Offer where
  /-- No command was presented at the last edge, or the one presented was accepted. -/
  | idle
  /-- This command is presented, not accepted yet, and has been held unchanged. -/
  | held (cmd : Command)
  /-- The host changed cmd_op or cmd_data while cmd_valid stayed 1 before acceptance (R52, I5); these are the
  command held first and then the one presented at each edge since the change, the latest at the head. -/
  | changed (cmds : List Command)
deriving DecidableEq, Repr

/-- The input ports as sampled at one rising edge of clk (R40). -/
structure PortIn where
  rst : Bool
  cmdValid : Bool
  cmdOp : CmdWord
  cmdData : Mask
  rspReady : Bool
deriving DecidableEq, Repr

/-- The output ports (R40). -/
structure PortOut where
  cmdReady : Bool
  rspValid : Bool
  rspData : Mask
  rspErr : Bool
deriving DecidableEq, Repr

/-- The whole machine: R20's state, the command in flight, and what the model holds beside it (the host's side, the
build, a count of free values drawn). -/
structure State where
  /-- M[0..3] (R22). -/
  m : MaskFile
  /-- ACC, the encoder accumulator (R23). -/
  acc : Mask
  /-- CNT, the bytes accepted in the current encode session (R24). -/
  cnt : BitVec 16
  /-- CARD, the last cardinality (R25). -/
  card : BitVec 7
  /-- DLEN, the length of the last decoded sequence (R26). -/
  dlen : BitVec 7
  /-- DOUT[0..63], the last decoded sequence (R27). -/
  dout : Vector Byte 64
  /-- STATUS (R28). -/
  status : Status
  /-- RSP (R32). -/
  rsp : Response
  /-- The accepted command that is still executing, if there is one (R42). -/
  inflight : Option InFlight
  /-- MODEL'S OWN: what the host has presented and not had accepted (R52). -/
  offer : Offer
  /-- MODEL'S OWN: what the host drives on the input ports at the coming edges, the next edge first (R53); past the
  end of the list it drives nothing. -/
  host : List PortIn
  /-- The build's parameters (R6). Not state of the FBCU (R8, R20): no step changes it. -/
  build : Build
  /-- MODEL'S OWN: how many free values have been drawn. -/
  draws : Nat
deriving DecidableEq, Repr

/-! ### Reset (R34) -/

/-- The machine of build `b` right after reset (R34), with the model's own fields given. -/
def State.resetOf (b : Build) (offer : Offer) (host : List PortIn) (draws : Nat) : State :=
  { m := ⟨0, 0, 0, 0⟩
    acc := 0
    cnt := 0
    card := 0
    dlen := 0
    dout := Vector.replicate 64 0
    status := ⟨false, 0⟩
    rsp := ⟨false, 0, false⟩
    inflight := none
    offer := offer
    host := host
    build := b
    draws := draws }

/-- The machine right after reset (R34), of an arbitrary legal build, nothing presented by the host yet. -/
def State.reset : State := State.resetOf Config.build .idle [] 0

end Sys2Proof.Machine
end

