-- ==== Sys2Proof/Machine/Flags.lean ====
section
/-!
DEFINITION. STATUS, the only flags of the FBCU: its 64-bit view (R28), the error codes (R161), how an error is recorded
(R163) and how the record is cleared (R144).
-/

namespace Sys2Proof.Machine

/-- The 3-bit code of an error (R161). -/
def errCode (e : ErrCode) : BitVec 3 :=
  match e with
  | .illop => 1#3
  | .rsvd => 2#3
  | .range => 3#3

/-- STATUS as read: zext_60(0), ECODE, ERR from the top down (R28, R29). -/
def statusWord (st : Status) : Mask := 0#60 ++ (st.ecode ++ BitVec.ofBool st.err)

/-- Recording an error: ERR becomes 1, and ECODE takes the code only if ERR was 0 (R163, R165). -/
def recordError (e : ErrCode) (st : Status) : Status :=
  { err := true
    ecode := if st.err then st.ecode else errCode e }

/-- STATUS after CLRSTAT (R144). -/
def clearedStatus : Status := { err := false, ecode := 0 }

end Sys2Proof.Machine
end

