-- ==== Sys2Proof/Machine/Operands.lean ====
section
/-!
DEFINITION. The operand forms and value functions of the FBCU: byte lanes (R10, R50), the alphabet lookup (R80),
encode of a byte sequence (R83), decode of a mask (R100), the population count (R10), the special-register numbers (R29).
-/

namespace Sys2Proof.Machine

/-! ### Byte lanes (R50) -/

/-- lane(d, j) = d[8j+7:8j], little-endian (R10, R50). -/
def lane (d : Mask) (j : Nat) : Byte := d.extractLsb' (8 * j) 8

/-- The 64-bit word whose lane `j` is `f j`, for j in 0..7, built as R102's loop builds it. -/
def packLanes (f : Nat → Byte) : Mask :=
  (List.range 8).foldl (fun r j => r ||| ((f j).setWidth 64 <<< (8 * j))) 0

/-! ### The alphabet lookup (R80 to R82) -/

/-- hit(b): bit `i` is 1 exactly when ALPHABET[i] = b, over the 64 positions and no others (R80, R82). -/
def hit (b : Build) (x : Byte) : Mask :=
  (List.finRange 64).foldl (fun h i => if b.symbolAt i = x then h ||| (1#64 <<< i.val) else h) 0

/-- position_of(b): the position of a symbol, none for an unknown byte (R81). -/
def positionOf (b : Build) (x : Byte) : Option (Fin 64) :=
  (List.finRange 64).find? fun i => b.symbolAt i = x

/-! ### Encode and decode as functions (R83, R100) -/

/-- encode(s), the OR of the hit vectors of the bytes of `s` (R83). -/
def encodeBytes (b : Build) (s : List Byte) : Mask := s.foldl (fun h x => h ||| hit b x) 0

/-- decode(A), the symbols of the set bits of A from position 63 down to position 0 (R100). -/
def decodeMask (b : Build) (a : Mask) : List Byte :=
  ((List.finRange 64).reverse.filter fun i => a.getLsbD i.val).map b.symbolAt

/-- popcount(v), the number of set bits over all 64 positions (R10). -/
def popcount (v : Mask) : Nat := (List.finRange 64).countP fun i => v.getLsbD i.val

/-- The 64 bytes DEC writes for a decoded sequence: the sequence, then 0x00 (R101). -/
def doutOf (seq : List Byte) : Vector Byte 64 := Vector.ofFn fun k => seq.getD k.val 0

/-- The lanes 0 to n-1 of `d` through the lookup and the OR-tree (R86). -/
def scanLanes (b : Build) (n : Nat) (d : Mask) : Mask :=
  (List.range n).foldl (fun h j => h ||| hit b (lane d j)) 0

/-! ### Special registers (R29, R30) -/

/-- The special registers RDSR reads, numbers 0 to 5 (R29). -/
inductive SpecialReg where
  | status | acc | ecnt | card | dlen | param
deriving DecidableEq, Repr

/-- The special register of a number; none for the reserved numbers 6 to 31 (R29). -/
def specialReg? (s : BitVec 5) : Option SpecialReg :=
  if s = 0#5 then some .status
  else if s = 1#5 then some .acc
  else if s = 2#5 then some .ecnt
  else if s = 3#5 then some .card
  else if s = 4#5 then some .dlen
  else if s = 5#5 then some .param
  else none

/-- PARAM: N_SYM in bits 7:0, NMR in 15:8, MAX_LEN in 31:16, LANES in 39:32, 0 in 63:40 (R30). -/
def paramWord (b : Build) : Mask :=
  BitVec.ofNat 64 Config.nSym
    ||| (BitVec.ofNat 64 Config.nmr <<< 8)
    ||| (b.maxLen.setWidth 64 <<< 16)
    ||| (BitVec.ofNat 64 Config.lanes <<< 32)

end Sys2Proof.Machine
end

