-- ==== Sys2Proof/Machine/Ops.lean ====
section
/-!
DEFINITION. The named operations over the state that the meanings share: reading and writing a mask register, the
updates of the other registers, answering a command, and raising an error, which is all the FBCU has for an exception.
There is no operation over memory: the FBCU has no address space (R48).
-/

namespace Sys2Proof.Machine

/-- The registers of a state, R20's without RSP. -/
def registersOf (s : State) : Registers :=
  { m := s.m, acc := s.acc, cnt := s.cnt, card := s.card, dlen := s.dlen, dout := s.dout, status := s.status }

/-! ### Mask registers (R22) -/

/-- M[r]. -/
def readM (r : MReg) (s : State) : Mask :=
  match r with
  | .m0 => s.m.m0
  | .m1 => s.m.m1
  | .m2 => s.m.m2
  | .m3 => s.m.m3

/-- The register file with `v` in register `r`. -/
def setMaskFile (f : MaskFile) (r : MReg) (v : Mask) : MaskFile :=
  match r with
  | .m0 => { f with m0 := v }
  | .m1 => { f with m1 := v }
  | .m2 => { f with m2 := v }
  | .m3 => { f with m3 := v }

/-- M[r] <- v. -/
def writeM (r : MReg) (v : Mask) (s : State) : State := { s with m := setMaskFile s.m r v }

/-! ### The other registers -/

/-- ACC <- acc and CNT <- cnt (R23, R24). -/
def setEncoder (acc : Mask) (cnt : BitVec 16) (s : State) : State := { s with acc := acc, cnt := cnt }

/-- CARD <- c (R25). -/
def setCard (c : BitVec 7) (s : State) : State := { s with card := c }

/-- DLEN and DOUT take a decoded sequence (R26, R27). -/
def setDecoded (seq : List Byte) (s : State) : State :=
  { s with dlen := BitVec.ofNat 7 seq.length, dout := doutOf seq }

/-- STATUS <- st (R28). -/
def setStatus (st : Status) (s : State) : State := { s with status := st }

/-- RSP <- r (R32). -/
def setRsp (r : Response) (s : State) : State := { s with rsp := r }

/-- DOUT[i], for i in 0..63 (R27). -/
def readDout (i : Nat) (s : State) : Byte := s.dout[i]?.getD 0

/-- The 64-bit value of a special register (R29). -/
def readSpecial (r : SpecialReg) (s : State) : Mask :=
  match r with
  | .status => statusWord s.status
  | .acc => s.acc
  | .ecnt => s.cnt.setWidth 64
  | .card => s.card.setWidth 64
  | .dlen => s.dlen.setWidth 64
  | .param => paramWord s.build

/-! ### Answering a command and raising an error -/

/-- respond(v): the response of the command is `v` with the error indication 0 (R10, R43, R44). -/
def respond (v : Mask) (s : State) : State := setRsp { pending := true, data := v, err := false } s

/-- raise Error(e), the one shared error operation (R163): STATUS records the error, the response is 0 with the error
indication 1, and nothing else changes. Nothing is saved and there is nothing to return from (R160, R166). -/
def raiseError (e : ErrCode) (s : State) : State :=
  setRsp { pending := true, data := 0, err := true } (setStatus (recordError e s.status) s)

/-- M[rd] <- f(M[ra], M[rb]), both sources read before the write, and the result is the response (R46, R120). -/
def writeAlgebra (f : Mask → Mask → Mask) (rd ra rb : MReg) (s : State) : State :=
  let r := f (readM ra s) (readM rb s)
  respond r (writeM rd r s)

/-- How many of `n` lanes an ENCB accepts: as many as MAX_LEN leaves room for (R86). -/
def acceptedLanes (n : Nat) (s : State) : Nat := min n (s.build.maxLen.toNat - s.cnt.toNat)

/-- Scans the accepted ones of the lanes 0 to n-1 of `d` into the accumulator and counts them (R86). -/
def scanIntoAcc (n : Nat) (d : Mask) (s : State) : State :=
  let a := acceptedLanes n s
  let acc := s.acc ||| scanLanes s.build a d
  respond acc (setEncoder acc (s.cnt + BitVec.ofNat 16 a) s)

end Sys2Proof.Machine
end

