-- ==== Sys2Proof/Machine/Control.lean ====
section
/-!
DEFINITION. The control commands: NOP (R140), RDSR (R143), CLRSTAT (R144), and the reserved opcodes (R65).
-/

namespace Sys2Proof.Machine

/-- NOP responds 0 and changes nothing else (R140). -/
def execNop (s : State) : Host.Outcome State Fault Refusal := .next (respond 0 s)

/-- RDSR responds with a special register (R143); a number above 5 is RANGE (R162). -/
def execRdsr (n : BitVec 5) (s : State) : Host.Outcome State Fault Refusal :=
  match specialReg? n with
  | some r => .next (respond (readSpecial r s) s)
  | none => .next (raiseError .range s)

/-- CLRSTAT clears ERR and ECODE and responds 0 (R144). -/
def execClrstat (s : State) : Host.Outcome State Fault Refusal := .next (respond 0 (setStatus clearedStatus s))

/-- A reserved opcode raises ILLOP whatever its other bits (R65, R162). -/
def execReserved (_bits : BitVec 15) (s : State) : Host.Outcome State Fault Refusal := .next (raiseError .illop s)

end Sys2Proof.Machine
end

