-- ==== Sys2Proof/Machine/Decoder.lean ====
section
/-!
DEFINITION. The decoder's commands: DEC (R101) and RDDEC (R102).
-/

namespace Sys2Proof.Machine

/-- DEC: DOUT and DLEN take decode(M[ra]), and the response is its length (R101). -/
def execDec (ra : MReg) (s : State) : Host.Outcome State Fault Refusal :=
  let seq := decodeMask s.build (readM ra s)
  .next (respond (BitVec.ofNat 64 seq.length) (setDecoded seq s))

/-- RDDEC responds with DOUT[8k] to DOUT[8k+7], DOUT[8k+j] in lane j (R102); a chunk index above 7 is RANGE (R162). -/
def execRddec (k : BitVec 5) (s : State) : Host.Outcome State Fault Refusal :=
  if 7#5 < k then .next (raiseError .range s)
  else .next (respond (packLanes fun j => readDout (8 * k.toNat + j) s) s)

end Sys2Proof.Machine
end

