-- ==== Sys2Proof/Machine/Encoder.lean ====
section
/-!
DEFINITION. The encoder's commands: ENCCLR (R85), ENCB (R86), ENCST (R87).
-/

namespace Sys2Proof.Machine

/-- ENCCLR: ACC and CNT become 0 and the response is 0 (R85). -/
def execEncclr (s : State) : Host.Outcome State Fault Refusal := .next (respond 0 (setEncoder 0 0 s))

/-- ENCB scans up to eight lanes of cmd_data into ACC (R86); a count above 8 is RANGE and scans nothing (R162). -/
def execEncb (n : BitVec 5) (data : Mask) (s : State) : Host.Outcome State Fault Refusal :=
  if 8#5 < n then .next (raiseError .range s) else .next (scanIntoAcc n.toNat data s)

/-- ENCST: M[rd] <- ACC, which is the response (R87). -/
def execEncst (rd : MReg) (s : State) : Host.Outcome State Fault Refusal :=
  .next (respond s.acc (writeM rd s.acc s))

end Sys2Proof.Machine
end

