-- ==== Sys2Proof/Machine/SetAlgebra.lean ====
section
/-!
DEFINITION. The set-algebra unit and the cardinality counter (R120): AND (R121), OR (R122), XOR (R123), NOT (R124),
ANDN (R125), CARD (R126).
-/

namespace Sys2Proof.Machine

/-- AND: intersection (R121). -/
def execAnd (rd ra rb : MReg) (s : State) : Host.Outcome State Fault Refusal :=
  .next (writeAlgebra (fun a b => a &&& b) rd ra rb s)

/-- OR: union (R122). -/
def execOr (rd ra rb : MReg) (s : State) : Host.Outcome State Fault Refusal :=
  .next (writeAlgebra (fun a b => a ||| b) rd ra rb s)

/-- XOR: symmetric difference (R123). With rd as exactly one source it is not idempotent, as R123 has it and R49's derived
clause has it not (log entry 19). -/
def execXor (rd ra rb : MReg) (s : State) : Host.Outcome State Fault Refusal :=
  .next (writeAlgebra (fun a b => a ^^^ b) rd ra rb s)

/-- NOT: complement of all 64 bits; "rd = ra complements in place" (R124), so it is not idempotent there, against R49's
derived clause (log entry 19). -/
def execNot (rd ra : MReg) (s : State) : Host.Outcome State Fault Refusal :=
  .next (writeAlgebra (fun a _ => ~~~a) rd ra ra s)

/-- ANDN: difference, the set kept first, the set removed second (R125). With rd as the second source only it is not
idempotent, as R125 has it and R49's derived clause has it not (log entry 19). -/
def execAndn (rd ra rb : MReg) (s : State) : Host.Outcome State Fault Refusal :=
  .next (writeAlgebra (fun a b => a &&& ~~~b) rd ra rb s)

/-- CARD: the register CARD takes the population count of M[ra], which is the response (R126). -/
def execCard (ra : MReg) (s : State) : Host.Outcome State Fault Refusal :=
  let c := popcount (readM ra s)
  .next (respond (BitVec.ofNat 64 c) (setCard (BitVec.ofNat 7 c) s))

end Sys2Proof.Machine
end

