-- ==== Sys2Proof/Machine/Transfer.lean ====
section
/-!
DEFINITION. The data transfer commands: LDM (R141) and RDM (R142).
-/

namespace Sys2Proof.Machine

/-- LDM: M[rd] <- cmd_data, which is the response (R141). -/
def execLdm (rd : MReg) (data : Mask) (s : State) : Host.Outcome State Fault Refusal :=
  .next (respond data (writeM rd data s))

/-- RDM responds with M[ra] (R142). -/
def execRdm (ra : MReg) (s : State) : Host.Outcome State Fault Refusal := .next (respond (readM ra s) s)

end Sys2Proof.Machine
end

