-- ==== Sys2Proof/Machine/Dispatch.lean ====
section
/-! DEFINITION. The dispatch: one arm per command, each one call of its meaning. -/

namespace Sys2Proof.Machine

/-- One accepted command's execution, as a function of the state (R46). -/
def exec (i : Instr) (s : State) : Host.Outcome State Fault Refusal :=
  match i with
  | .nop => Sys2Proof.Machine.execNop s
  | .encclr => Sys2Proof.Machine.execEncclr s
  | .encb n data => Sys2Proof.Machine.execEncb n data s
  | .encst rd => Sys2Proof.Machine.execEncst rd s
  | .ldm rd data => Sys2Proof.Machine.execLdm rd data s
  | .rdm ra => Sys2Proof.Machine.execRdm ra s
  | .and rd ra rb => Sys2Proof.Machine.execAnd rd ra rb s
  | .or rd ra rb => Sys2Proof.Machine.execOr rd ra rb s
  | .xor rd ra rb => Sys2Proof.Machine.execXor rd ra rb s
  | .not rd ra => Sys2Proof.Machine.execNot rd ra s
  | .andn rd ra rb => Sys2Proof.Machine.execAndn rd ra rb s
  | .card ra => Sys2Proof.Machine.execCard ra s
  | .dec ra => Sys2Proof.Machine.execDec ra s
  | .rddec k => Sys2Proof.Machine.execRddec k s
  | .rdsr n => Sys2Proof.Machine.execRdsr n s
  | .clrstat => Sys2Proof.Machine.execClrstat s
  | .reserved bits => Sys2Proof.Machine.execReserved bits s

end Sys2Proof.Machine
end

