-- ==== Sys2Proof/Machine/Clock.lean ====
section
/-!
DEFINITION. One rising edge of clk: reset (R180, R181), acceptance of a command (R41, R42), its execution and the cycles
it takes (R45, R46, R190), the response and its taking (R43), and the output ports (R40).
-/

namespace Sys2Proof.Machine

/-! ### The ports (R40) -/

/-- What a host that does nothing drives: no reset, no command, no response taken. -/
def idlePorts : PortIn := { rst := false, cmdValid := false, cmdOp := 0, cmdData := 0, rspReady := false }

/-- The command presented on the command port (R41). -/
def presented (p : PortIn) : Command := { op := p.cmdOp, data := p.cmdData }

/-- cmd_ready = 1 exactly when rst = 0, no accepted command is still executing, and RSP.pending = 0 (R42). -/
def cmdReady (rst : Bool) (s : State) : Bool := !rst && s.inflight.isNone && !s.rsp.pending

/-- rsp_valid is RSP.pending, and 0 while rst = 1 (R40, R181). -/
def rspValid (rst : Bool) (s : State) : Bool := !rst && s.rsp.pending

/-- The output ports while the input rst has the given value (R40). -/
def outputs (rst : Bool) (s : State) : PortOut :=
  { cmdReady := cmdReady rst s
    rspValid := rspValid rst s
    rspData := s.rsp.data
    rspErr := s.rsp.err }

/-! ### The command-level function (R46) -/

/-- R46's step(state, cmd_op, cmd_data): the command is decoded and executed, or raises the error its word has; the
response is in RSP of the next state. -/
def runCommand (c : Command) (s : State) : Host.Outcome State Fault Refusal :=
  match decode c.op c.data with
  | .ok i => exec i s
  | .error e => .next (raiseError e s)

/-! ### The host's offer (R52) -/

/-- What is known of the host's offer after an edge that accepts nothing: whether the host kept the command it
presents unchanged (R52). -/
def offerAfter (p : PortIn) (o : Offer) : Offer :=
  if p.cmdValid then
    match o with
    | .idle => .held (presented p)
    | .held c => if c = presented p then .held c else .changed [presented p, c]
    | .changed cmds => .changed (presented p :: cmds)
  else .idle

/-- The command an accepting edge accepts: the one sampled at the edge (R41), unless the host changed it before; then
which command is accepted is not specified (R52, I5), a free value. -/
def acceptedCommand (p : PortIn) (s : State) : Command :=
  match offerAfter p s.offer with
  | .changed cmds => Config.unstableCommand s.draws cmds (registersOf s) s.build
  | .held _ => presented p
  | .idle => presented p

/-! ### What an edge does -/

/-- An edge with rst = 1: every piece of state takes its reset value (R180); a command in flight is abandoned and a
pending response discarded (R181). The build, the host's side and the count of free values are no state of the FBCU. -/
def resetEdge (p : PortIn) (s : State) : State :=
  State.resetOf s.build (offerAfter p s.offer) s.host s.draws

/-- How many cycles beyond the one of R45 a command accepted in `s` executes: a free value, which may differ per command
and per mask (R190; log entry 4 says what it depends on). -/
def extraCyclesOf (c : Command) (s : State) : Nat := Config.extraCycles s.draws c (registersOf s) s.build

/-- The edge that accepts the command presented (R41). It executes for one cycle and however many more the
implementation takes (R45, R190). -/
def acceptEdge (p : PortIn) (s : State) : State :=
  { s with
    inflight := some { cmd := acceptedCommand p s, wait := extraCyclesOf (acceptedCommand p s) s }
    offer := .idle
    draws := s.draws + 1 }

/-- An edge at which the command in flight goes on executing: nothing of it is visible yet (R46). -/
def waitEdge (p : PortIn) (cmd : Command) (wait : Nat) (s : State) : State :=
  { s with inflight := some { cmd := cmd, wait := wait }, offer := offerAfter p s.offer }

/-- The edge that ends a command's execution: all its writes take effect together with its response (R43, R46). -/
def completeEdge (p : PortIn) (cmd : Command) (s : State) : Host.Outcome State Fault Refusal :=
  runCommand cmd { s with inflight := none, offer := offerAfter p s.offer }

/-- An edge with a response presented: the host takes it if rsp_ready = 1, and then RSP.pending becomes 0; otherwise it
stays as it is (R43). No command is accepted (R42). -/
def responseEdge (p : PortIn) (s : State) : State :=
  { s with
    rsp := { s.rsp with pending := !p.rspReady }
    offer := offerAfter p s.offer }

/-- An edge with nothing executing and no response presented: a command is accepted if one is presented (R41, R42). -/
def readyEdge (p : PortIn) (s : State) : State :=
  if p.cmdValid then acceptEdge p s else { s with offer := .idle }

/-- One rising edge of clk at which the input ports hold `p`. -/
def edge (p : PortIn) (s : State) : Host.Outcome State Fault Refusal :=
  if p.rst then .next (resetEdge p s)
  else
    match s.inflight with
    | some f =>
      match f.wait with
      | 0 => completeEdge p f.cmd s
      | n + 1 => .next (waitEdge p f.cmd n s)
    | none => if s.rsp.pending then .next (responseEdge p s) else .next (readyEdge p s)

/-! ### The host's schedule -/

/-- What the host drives at the coming edge; past the end of its schedule it drives nothing. -/
def nextPorts (s : State) : PortIn := s.host.headD idlePorts

/-- The state with the coming edge's ports taken off the schedule. -/
def popPorts (s : State) : State := { s with host := s.host.tail }

/-- The state in which the coming edge ends the execution of `c`, the host driving nothing at it. -/
def placeCommand (c : Command) (s : State) : State :=
  { s with inflight := some { cmd := c, wait := 0 }, host := idlePorts :: s.host }

end Sys2Proof.Machine
end

