-- ==== Sys2Proof/Machine/Step.lean ====
section
/-!
DEFINITION. The step of the machine: one rising edge of clk, the input ports being what the host's schedule says.
-/

namespace Sys2Proof.Machine

/-- One step: one rising edge of clk (R40). -/
def step (s : State) : Host.Outcome State Fault Refusal := edge (nextPorts s) (popPorts s)

/-- `s` with the table word's command in flight and due: the FBCU fetches nothing (R21), so this stands for the host's
command having been accepted, and the very next step executes it. -/
def State.withFetchWord (s : State) (nbits w : Nat) : State := placeCommand (tableCommand nbits w) s

end Sys2Proof.Machine
end

