-- ==== Sys2Proof/Machine/Assembler.lean ====
section
/-!
DEFINITION. The assembler: the pseudo-instructions and their exact expansions (R72), and the text of one line (R71).
It turns text into the commands a host sends; no step of the machine uses it.
-/

namespace Sys2Proof.Machine

/-! ### Lines and their expansion (R72) -/

/-- One assembled line: a command of R71, or a pseudo-instruction of R72. -/
inductive AsmLine where
  | command (i : Instr)
  | intersect (rd ra rb : MReg)
  | union (rd ra rb : MReg)
  | diff (rd ra rb : MReg)
  | symdiff (rd ra rb : MReg)
  | compl (rd ra : MReg)
  | mov (rd ra : MReg)
  | clr (rd : MReg)
  | encs (s : List Byte)
  | encode (rd : MReg) (s : List Byte)
deriving DecidableEq, Repr

/-- The c-th ENCB of `ENCS s`: n_c = min(8, L - 8c) bytes, s[8c+j] in lane j, the other lanes 0 (R72). -/
def encsChunk (s : List Byte) (c : Nat) : Instr :=
  let n := min 8 (s.length - 8 * c)
  .encb (BitVec.ofNat 5 n) (packLanes fun j => if j < n then s.getD (8 * c + j) 0 else 0)

/-- The ENCB commands of `ENCS s`, c from 0 to ceil(L/8) - 1; none when L = 0 (R72). -/
def encsCommands (s : List Byte) : List Instr := (List.range ((s.length + 7) / 8)).map (encsChunk s)

/-- The commands a line stands for (R72). -/
def expandLine (a : AsmLine) : List Instr :=
  match a with
  | .command i => [i]
  | .intersect rd ra rb => [.and rd ra rb]
  | .union rd ra rb => [.or rd ra rb]
  | .diff rd ra rb => [.andn rd ra rb]
  | .symdiff rd ra rb => [.xor rd ra rb]
  | .compl rd ra => [.not rd ra]
  | .mov rd ra => [.or rd ra ra]
  | .clr rd => [.xor rd rd rd]
  | .encs s => encsCommands s
  | .encode rd s => .encclr :: (encsCommands s ++ [.encst rd])

/-! ### The text of a line (R71) -/

/-- White space inside a line. -/
def isBlank (c : Char) : Bool := c == ' ' || c == '\t' || c == '\r'

/-- The quotation mark that opens and closes the byte string of ENCS and ENCODE. -/
def quoteMark : Char := Char.ofNat 34

/-- The line up to its comment: the first `;` outside quotation marks starts one (R71). -/
def stripComment (inQuotes : Bool) (cs : List Char) : List Char :=
  match cs with
  | [] => []
  | c :: rest =>
    if c == ';' && !inQuotes then []
    else c :: stripComment (if c == quoteMark then !inQuotes else inQuotes) rest

/-- Drops white space at both ends. -/
def trimBlanks (cs : List Char) : List Char :=
  ((cs.dropWhile isBlank).reverse.dropWhile isBlank).reverse

/-- Cuts the operand text at the commas outside quotation marks (R71). -/
def splitOperands (inQuotes : Bool) (cs : List Char) : List (List Char) :=
  match cs with
  | [] => [[]]
  | c :: rest =>
    if c == ',' && !inQuotes then [] :: splitOperands inQuotes rest
    else
      match splitOperands (if c == quoteMark then !inQuotes else inQuotes) rest with
      | [] => [[c]]
      | first :: others => (c :: first) :: others

/-- A mask register, `m0` to `m3` (R71). -/
def parseReg? (cs : List Char) : Option MReg :=
  if cs = ['m', '0'] then some .m0
  else if cs = ['m', '1'] then some .m1
  else if cs = ['m', '2'] then some .m2
  else if cs = ['m', '3'] then some .m3
  else none

/-- The value of a digit, up to base 16. -/
def digitValue? (c : Char) : Option Nat :=
  let n := c.toNat
  if 48 ≤ n ∧ n ≤ 57 then some (n - 48)
  else if 65 ≤ n ∧ n ≤ 70 then some (n - 55)
  else if 97 ≤ n ∧ n ≤ 102 then some (n - 87)
  else none

/-- The digits of a number in a base, most significant first, read after `acc`. -/
def digitsValue? (base acc : Nat) (cs : List Char) : Option Nat :=
  match cs with
  | [] => some acc
  | c :: rest =>
    match digitValue? c with
    | none => none
    | some d => if d < base then digitsValue? base (base * acc + d) rest else none

/-- A number, decimal or `0x` hexadecimal (R71). -/
def parseNat? (cs : List Char) : Option Nat :=
  match cs with
  | '0' :: 'x' :: d :: rest => digitsValue? 16 0 (d :: rest)
  | [] => none
  | d :: rest => digitsValue? 10 0 (d :: rest)

/-- A number of `w` bits. -/
def parseBits? (w : Nat) (cs : List Char) : Option (BitVec w) :=
  match parseNat? cs with
  | some n => if n < 2 ^ w then some (BitVec.ofNat w n) else none
  | none => none

/-- The number of a special register: 0 to 5, or its name (R71). -/
def parseSpecial? (cs : List Char) : Option (BitVec 5) :=
  if cs = ['S', 'T', 'A', 'T', 'U', 'S'] then some 0#5
  else if cs = ['A', 'C', 'C'] then some 1#5
  else if cs = ['E', 'C', 'N', 'T'] then some 2#5
  else if cs = ['C', 'A', 'R', 'D'] then some 3#5
  else if cs = ['D', 'L', 'E', 'N'] then some 4#5
  else if cs = ['P', 'A', 'R', 'A', 'M'] then some 5#5
  else parseBits? 5 cs

/-- The bytes up to the closing quotation mark, which ends the operand; each character is its byte value (R72). DESIGN
CHOICE (log entry 18), safe: R72 does not say what the byte value of a character above 0x7F is; here a character 0x80
to 0xFF is the one byte of its code point, not its UTF-8 bytes, and a string with a character above 0xFF is refused. -/
def stringBytes? (cs : List Char) : Option (List Byte) :=
  match cs with
  | [] => none
  | c :: rest =>
    if c == quoteMark then if rest = [] then some [] else none
    else if c.toNat < 256 then (stringBytes? rest).map fun bs => BitVec.ofNat 8 c.toNat :: bs
    else none

/-- A byte string in quotation marks (R72). -/
def parseString? (cs : List Char) : Option (List Byte) :=
  match cs with
  | [] => none
  | c :: rest => if c == quoteMark then stringBytes? rest else none

/-- The mnemonics an assembler knows (R71, R72). -/
inductive Mnemonic where
  | operation (o : Operation)
  | intersect | union | diff | symdiff | compl | mov | clr | encs | encode
deriving DecidableEq, Repr

/-- The spelling of each command's mnemonic (R71). -/
def commandNames : List (List Char × Mnemonic) :=
  [ (['N', 'O', 'P'], .operation .nop),
    (['E', 'N', 'C', 'C', 'L', 'R'], .operation .encclr),
    (['E', 'N', 'C', 'B'], .operation .encb),
    (['E', 'N', 'C', 'S', 'T'], .operation .encst),
    (['L', 'D', 'M'], .operation .ldm),
    (['R', 'D', 'M'], .operation .rdm),
    (['A', 'N', 'D'], .operation .and),
    (['O', 'R'], .operation .or),
    (['X', 'O', 'R'], .operation .xor),
    (['N', 'O', 'T'], .operation .not),
    (['A', 'N', 'D', 'N'], .operation .andn),
    (['C', 'A', 'R', 'D'], .operation .card),
    (['D', 'E', 'C'], .operation .dec),
    (['R', 'D', 'D', 'E', 'C'], .operation .rddec),
    (['R', 'D', 'S', 'R'], .operation .rdsr),
    (['C', 'L', 'R', 'S', 'T', 'A', 'T'], .operation .clrstat) ]

/-- The spelling of each pseudo-instruction (R72). -/
def pseudoNames : List (List Char × Mnemonic) :=
  [ (['I', 'N', 'T', 'E', 'R', 'S', 'E', 'C', 'T'], .intersect),
    (['U', 'N', 'I', 'O', 'N'], .union),
    (['D', 'I', 'F', 'F'], .diff),
    (['S', 'Y', 'M', 'D', 'I', 'F', 'F'], .symdiff),
    (['C', 'O', 'M', 'P', 'L'], .compl),
    (['M', 'O', 'V'], .mov),
    (['C', 'L', 'R'], .clr),
    (['E', 'N', 'C', 'S'], .encs),
    (['E', 'N', 'C', 'O', 'D', 'E'], .encode) ]

/-- The mnemonic a word spells. -/
def parseMnemonic? (cs : List Char) : Option Mnemonic :=
  ((commandNames ++ pseudoNames).find? fun p => p.1 == cs).map fun p => p.2

/-- A line of no operand. -/
def noOperand? (ops : List (List Char)) (a : AsmLine) : Option AsmLine := if ops = [] then some a else none

/-- A line of one register operand. -/
def oneReg? (ops : List (List Char)) (f : MReg → AsmLine) : Option AsmLine :=
  match ops with
  | [a] => (parseReg? a).map f
  | _ => none

/-- A line of two register operands. -/
def twoRegs? (ops : List (List Char)) (f : MReg → MReg → AsmLine) : Option AsmLine :=
  match ops with
  | [a, b] => (parseReg? a).bind fun x => (parseReg? b).map fun y => f x y
  | _ => none

/-- A line of three register operands: destination, first source, second source. -/
def threeRegs? (ops : List (List Char)) (f : MReg → MReg → MReg → AsmLine) : Option AsmLine :=
  match ops with
  | [a, b, c] => (parseReg? a).bind fun x => (parseReg? b).bind fun y => (parseReg? c).map fun z => f x y z
  | _ => none

/-- A command whose IMM5 operand is in range (R64, R71). -/
def legalCommand? (i : Instr) : Option AsmLine := if i.wellFormed then some (.command i) else none

/-- A command of R71 from its operands. -/
def parseOperation? (o : Operation) (ops : List (List Char)) : Option AsmLine :=
  match o with
  | .nop => noOperand? ops (.command .nop)
  | .encclr => noOperand? ops (.command .encclr)
  | .encb =>
    match ops with
    | [n, d] => (parseBits? 5 n).bind fun n => (parseBits? 64 d).bind fun d => legalCommand? (.encb n d)
    | _ => none
  | .encst => oneReg? ops fun rd => .command (.encst rd)
  | .ldm =>
    match ops with
    | [rd, d] => (parseReg? rd).bind fun rd => (parseBits? 64 d).map fun d => .command (.ldm rd d)
    | _ => none
  | .rdm => oneReg? ops fun ra => .command (.rdm ra)
  | .and => threeRegs? ops fun rd ra rb => .command (.and rd ra rb)
  | .or => threeRegs? ops fun rd ra rb => .command (.or rd ra rb)
  | .xor => threeRegs? ops fun rd ra rb => .command (.xor rd ra rb)
  | .not => twoRegs? ops fun rd ra => .command (.not rd ra)
  | .andn => threeRegs? ops fun rd ra rb => .command (.andn rd ra rb)
  | .card => oneReg? ops fun ra => .command (.card ra)
  | .dec => oneReg? ops fun ra => .command (.dec ra)
  | .rddec =>
    match ops with
    | [k] => (parseBits? 5 k).bind fun k => legalCommand? (.rddec k)
    | _ => none
  | .rdsr =>
    match ops with
    | [s] => (parseSpecial? s).bind fun s => legalCommand? (.rdsr s)
    | _ => none
  | .clrstat => noOperand? ops (.command .clrstat)

/-- A line from its mnemonic and operands (R71, R72). -/
def parseForm? (m : Mnemonic) (ops : List (List Char)) : Option AsmLine :=
  match m with
  | .operation o => parseOperation? o ops
  | .intersect => threeRegs? ops .intersect
  | .union => threeRegs? ops .union
  | .diff => threeRegs? ops .diff
  | .symdiff => threeRegs? ops .symdiff
  | .compl => twoRegs? ops .compl
  | .mov => twoRegs? ops .mov
  | .clr => oneReg? ops .clr
  | .encs =>
    match ops with
    | [s] => (parseString? s).map .encs
    | _ => none
  | .encode =>
    match ops with
    | [rd, s] => (parseReg? rd).bind fun rd => (parseString? s).map fun s => .encode rd s
    | _ => none

/-- The operand texts of a line, none for blank text. -/
def operandTexts (cs : List Char) : List (List Char) :=
  if trimBlanks cs = [] then [] else (splitOperands false cs).map trimBlanks

/-- One line of text as a list of at most one line of assembly: none for a blank or comment line; the parse fails on
anything else than R71's and R72's forms. -/
def parseLine? (text : List Char) : Option (List AsmLine) :=
  let body := trimBlanks (stripComment false text)
  if body = [] then some []
  else
    match parseMnemonic? (body.takeWhile fun c => !isBlank c) with
    | none => none
    | some m => (parseForm? m (operandTexts (body.dropWhile fun c => !isBlank c))).map fun a => [a]

/-- The commands a program of text lines stands for, in order; a command that ignores cmd_data gets cmd_data = 0
(R71, R72). -/
def assemble? (lines : List (List Char)) : Option (List Command) :=
  match lines with
  | [] => some []
  | l :: rest =>
    match parseLine? l, assemble? rest with
    | some as, some cs => some ((as.flatMap fun a => (expandLine a).map Sys2Proof.encode) ++ cs)
    | _, _ => none

end Sys2Proof.Machine
end

