-- ==== Sys2Proof/Safety.lean ====
section
/-!
DEFINITION. What the claims say of a state: the invariants the spec gives every reachable state (R28, R35, R42, R44),
and sequences of commands and of clock edges.
-/

namespace Sys2Proof.Machine

/-! ### Invariants -/

/-- STATUS is legal (R28): ERR = 0 with ECODE = 0, or ERR = 1 with ECODE in 1, 2, 3. -/
def legalStatus (st : Status) : Bool :=
  if st.err then decide (1#3 ≤ st.ecode ∧ st.ecode ≤ 3#3) else st.ecode == 0#3

/-- CNT is at most MAX_LEN (R24, R35). -/
def CntInRange (s : State) : Prop := s.cnt.toNat ≤ s.build.maxLen.toNat

/-- DOUT and DLEN hold the decode of some mask (R35): DLEN is its population count, DOUT its symbols and then 0x00.
Right after reset that mask is 0. -/
def HoldsDecode (s : State) : Prop :=
  ∃ a : Mask, s.dlen.toNat = popcount a ∧
    ∀ k : Nat, k < 64 → readDout k s = (decodeMask s.build a).getD k 0

/-- A command executes only while no response is pending (R42). -/
def OneOutstanding (s : State) : Prop := s.inflight = none ∨ s.rsp.pending = false

/-- A response that reports an error carries the data 0 (R44). -/
def ErrorResponseIsZero (s : State) : Prop := s.rsp.err = true → s.rsp.data = 0

/-- The invariants of R35, with R28's legal STATUS values, R42's one command outstanding and R44's error response. -/
structure Inv (s : State) : Prop where
  cnt_le : CntInRange s
  card_le : s.card.toNat ≤ 64
  dlen_le : s.dlen.toNat ≤ 64
  dout_tail : ∀ k : Nat, s.dlen.toNat ≤ k → k < 64 → readDout k s = 0
  decoded : HoldsDecode s
  status_legal : legalStatus s.status = true
  one_outstanding : OneOutstanding s
  error_data : ErrorResponseIsZero s

/-! ### Sequences -/

/-- What a sequence of clock edges leads to (R51); the schedule of the state says what the ports hold. -/
def runEdges (n : Nat) (s : State) : Host.Outcome State Fault Refusal :=
  match n with
  | 0 => .next s
  | n + 1 =>
    match step s with
    | .next t => runEdges n t
    | .fault r => .fault r
    | .refused r => .refused r

/-- What a sequence of commands leads to, one after the other at the command level (R46, R51). -/
def runCommands (cs : List Command) (s : State) : Host.Outcome State Fault Refusal :=
  match cs with
  | [] => .next s
  | c :: rest =>
    match runCommand c s with
    | .next t => runCommands rest t
    | .fault r => .fault r
    | .refused r => .refused r

/-- What a sequence of instructions leads to. -/
def execAll (is : List Instr) (s : State) : Host.Outcome State Fault Refusal :=
  match is with
  | [] => .next s
  | i :: rest =>
    match exec i s with
    | .next t => execAll rest t
    | .fault r => .fault r
    | .refused r => .refused r

/-! ### Responses (R43, R44) -/

/-- The response the host takes at the coming edge, data and error indication: one if rsp_valid = 1 and rsp_ready = 1
(R43). -/
def takenAt (s : State) : List (Mask × Bool) :=
  let out := outputs (nextPorts s).rst s
  if out.rspValid && (nextPorts s).rspReady then [(out.rspData, out.rspErr)] else []

/-- The responses the host takes over the coming `n` edges, in the order it takes them. -/
def takenResponses (n : Nat) (s : State) : List (Mask × Bool) :=
  match n with
  | 0 => []
  | n + 1 =>
    takenAt s ++
      match step s with
      | .next t => takenResponses n t
      | .fault _ => []
      | .refused _ => []

/-- The responses of a sequence of commands at the command level, in the order of the commands (R46). -/
def responsesOf (cs : List Command) (s : State) : List (Mask × Bool) :=
  match cs with
  | [] => []
  | c :: rest =>
    match runCommand c s with
    | .next t => (t.rsp.data, t.rsp.err) :: responsesOf rest t
    | .fault _ => []
    | .refused _ => []

/-! ### Ports of a host that keeps to R52 -/

/-- The ports of a host that presents a command and takes no response. -/
def offerPorts (c : Command) : PortIn :=
  { rst := false, cmdValid := true, cmdOp := c.op, cmdData := c.data, rspReady := false }

/-- The ports of a host that takes a response and presents nothing. -/
def takePorts : PortIn := { rst := false, cmdValid := false, cmdOp := 0, cmdData := 0, rspReady := true }

/-- A host's schedule for one command: present it for one edge, wait while it executes, take its response; `waits` is
the number of edges its execution takes. -/
def commandSchedule (c : Command) (waits : Nat) : List PortIn :=
  offerPorts c :: (List.replicate waits idlePorts ++ [takePorts])

/-- The number of edges a command accepted in `s` executes for (R45, R190): one, and the implementation's extra. -/
def executionEdges (c : Command) (s : State) : Nat := extraCyclesOf c s + 1

/-- A host's schedule for a list of commands, the first accepted in `s`, each next one in the state the one before
leads to. -/
def sessionSchedule (cs : List Command) (s : State) : List PortIn :=
  match cs with
  | [] => []
  | c :: rest =>
    commandSchedule c (executionEdges c s) ++
      match runCommand c s with
      | .next t => sessionSchedule rest { t with draws := s.draws + 1 }
      | .fault _ => []
      | .refused _ => []

/-- The FBCU can accept a command, and the host presents none yet: nothing executes, no response is pending (R42). -/
def Ready (s : State) : Prop := s.inflight = none ∧ s.rsp.pending = false ∧ s.offer = .idle

/-! ### Frames: what a command leaves as it was -/

/-- No mask register but those in `rds` changed. -/
def KeepsMasksBut (rds : List MReg) (s t : State) : Prop := ∀ r : MReg, r ∉ rds → readM r t = readM r s

/-- ACC and CNT are unchanged. -/
def KeepsEncoder (s t : State) : Prop := t.acc = s.acc ∧ t.cnt = s.cnt

/-- CARD is unchanged. -/
def KeepsCard (s t : State) : Prop := t.card = s.card

/-- DLEN and every byte of DOUT are unchanged. -/
def KeepsDecoded (s t : State) : Prop := t.dlen = s.dlen ∧ t.dout = s.dout

/-- STATUS is unchanged. -/
def KeepsStatus (s t : State) : Prop := t.status = s.status

/-- The command in flight, the host's side, the build and the free values are unchanged: no command touches them. -/
def KeepsOutside (s t : State) : Prop :=
  t.inflight = s.inflight ∧ t.offer = s.offer ∧ t.host = s.host ∧ t.build = s.build ∧ t.draws = s.draws

/-- The response is `v` with the error indication 0 (R43, R44). -/
def Responds (v : Mask) (t : State) : Prop := t.rsp = ⟨true, v, false⟩

/-- The command answers `v` and changes nothing but RSP. -/
def OnlyResponds (v : Mask) (s t : State) : Prop :=
  Responds v t ∧ KeepsMasksBut [] s t ∧ KeepsEncoder s t ∧ KeepsCard s t ∧ KeepsDecoded s t ∧ KeepsStatus s t
    ∧ KeepsOutside s t

/-- The command writes `v` to M[rd], answers `v`, and changes nothing else. -/
def WritesMask (rd : MReg) (v : Mask) (s t : State) : Prop :=
  readM rd t = v ∧ Responds v t ∧ KeepsMasksBut [rd] s t ∧ KeepsEncoder s t ∧ KeepsCard s t ∧ KeepsDecoded s t
    ∧ KeepsStatus s t ∧ KeepsOutside s t

/-! ### What the rules say of command words, in the rules' own bit numbers -/

/-- The must-be-zero bits of R162's table, each a lowest bit and a width; none for the reserved opcodes. -/
def mustBeZero (opc : BitVec 5) : List (Nat × Nat) :=
  match opc.toNat with
  | 0 => [(0, 11)]
  | 1 => [(0, 11)]
  | 2 => [(5, 6)]
  | 3 => [(0, 9)]
  | 4 => [(0, 9)]
  | 5 => [(9, 2), (0, 7)]
  | 6 => [(0, 5)]
  | 7 => [(0, 5)]
  | 8 => [(0, 5)]
  | 9 => [(0, 7)]
  | 10 => [(0, 5)]
  | 11 => [(9, 2), (0, 7)]
  | 12 => [(9, 2), (0, 7)]
  | 13 => [(5, 6)]
  | 14 => [(5, 6)]
  | 15 => [(0, 11)]
  | _ => []

/-- The largest legal IMM5 of R162's table, for the opcodes that read IMM5. -/
def immLimit (opc : BitVec 5) : Option Nat :=
  match opc.toNat with
  | 2 => some 8
  | 13 => some 7
  | 14 => some 5
  | _ => none

/-- Some must-be-zero bit of the word is 1 (R63). -/
def hasReservedBit (w : CmdWord) : Bool := (mustBeZero (opcOf w)).any fun f => w.extractLsb' f.1 f.2 != 0

/-- A word of opcode `opc` with a nonzero bit among the `len` bits from `lo` up is rejected with RSVD. -/
def RejectsNonzero (opc : BitVec 5) (lo len : Nat) : Prop :=
  ∀ (w : CmdWord) (d : Mask), opcOf w = opc → w.extractLsb' lo len ≠ 0 → decode w d = .error .rsvd

/-- A word of opcode `opc` with bits 10:5 zero and IMM5 above `limit` is rejected with RANGE. -/
def RejectsAbove (opc : BitVec 5) (limit : Nat) : Prop :=
  ∀ (w : CmdWord) (d : Mask), opcOf w = opc → w.extractLsb' 5 6 = 0 → limit < (immOf w).toNat →
    decode w d = .error .range

/-- A 2-bit register index at its place in the word: RD at 9, RA at 7, RB at 5 (R60). -/
def indexAt (place : Nat) (r : MReg) : CmdWord := (regIndex r).setWidth 16 <<< place

/-! ### Byte streams -/

/-- The bytes a list of ENCB commands offers, in stream order: of each, the lanes its count takes in (R84). -/
def streamOf (cmds : List (BitVec 5 × Mask)) : List Byte :=
  cmds.flatMap fun c => (List.range c.1.toNat).map (lane c.2)

/-- The ENCB commands of a list of counts and data operands. -/
def encbs (cmds : List (BitVec 5 × Mask)) : List Instr := cmds.map fun c => .encb c.1 c.2

end Sys2Proof.Machine
end

