-- ==== Sys2Proof/Certificates/Slice0/Obligations.lean ====
section
/-!
DEFINITION. The statements for the provers. Each docstring names the rules of spec/ its statement formalises.
-/

open Sys2Proof
open Sys2Proof.Machine

/-! ### Command words (30_encoding.md, 60_exceptions.md) -/

/-- 95_test_vectors.md section 2.6: the words listed there decode as listed. MODEL'S CHOICE (log entry 11), in the two
clauses of 0x8000 and 0xFFFF: section 2.6 lists Error(ILLOP) for them, which the model reaches through the reserved row
as an instruction. -/
def Obligations.ListedWordsDecodeAsListed : Prop :=
  ∀ d : Mask,
    decode 0x0000 d = .ok .nop ∧ decode 0x07FF d = .error .rsvd ∧ decode 0x0800 d = .ok .encclr
      ∧ decode 0x1008 d = .ok (.encb 8 d) ∧ decode 0x100F d = .error .range ∧ decode 0x1E00 d = .ok (.encst .m3)
      ∧ decode 0x2600 d = .ok (.ldm .m3 d) ∧ decode 0x2980 d = .ok (.rdm .m3)
      ∧ decode 0x3420 d = .ok (.and .m2 .m0 .m1) ∧ decode 0x3FE0 d = .ok (.or .m3 .m3 .m3)
      ∧ decode 0x4420 d = .ok (.xor .m2 .m0 .m1) ∧ decode 0x4E80 d = .ok (.not .m3 .m1)
      ∧ decode 0x5680 d = .ok (.andn .m3 .m1 .m0) ∧ decode 0x5980 d = .ok (.card .m3)
      ∧ decode 0x6180 d = .ok (.dec .m3) ∧ decode 0x6807 d = .ok (.rddec 7) ∧ decode 0x7005 d = .ok (.rdsr 5)
      ∧ decode 0x7800 d = .ok .clrstat ∧ decode 0x8000 d = .ok (.reserved 0)
      ∧ decode 0xFFFF d = .ok (.reserved 0x7FFF)

/-- R67, R68: decoding inverts encoding, for every command at every operand the encoding admits. MODEL'S CHOICE (log
entry 11), in the case of `reserved`: R67 gives Error(ILLOP) for a reserved word and R68 inverts R67 on legal commands
only; the model decodes it to that instruction and encodes it back. -/
def Obligations.DecodeOfEncodeIsTheInstruction : Prop :=
  ∀ i : Instr, i.WellFormed → decode (encode i).op (encode i).data = .ok i

/-- R60, R63, R66: a word that decodes to a command is exactly that command's word, with its operands in range; and
the data operand is the command's own, or the command ignores it (R70). MODEL'S CHOICE (log entry 11): a reserved word,
for which R67 gives Error(ILLOP), counts as decoding to the instruction `reserved`. -/
def Obligations.DecodedWordIsItsEncoding : Prop :=
  ∀ (w : CmdWord) (d : Mask) (i : Instr), decode w d = .ok i →
    i.WellFormed ∧ encodeWord i = w ∧ (encodeData i = d ∨ ∀ d' : Mask, decode w d' = .ok i)

/-- R62: at most one row of the opcode map matches a word, and none matches a word of the reserved space. -/
def Obligations.OpcodeRowsDoNotOverlap : Prop :=
  ∀ w : CmdWord,
    (∀ r ∈ opcodeMap, ∀ q ∈ opcodeMap, w &&& r.mask = r.pattern → w &&& q.mask = q.pattern → r = q)
      ∧ (w.getLsbD 15 = true → ∀ r ∈ opcodeMap, w &&& r.mask ≠ r.pattern)

/-- R162, R164: the error of a word is the first that applies of ILLOP, RSVD, RANGE, read off R162's bit lists and
limits; cmd_data never matters, and no register value makes a command erroneous. With R164's two examples. -/
def Obligations.ErrorOfAWordIsTheFirstThatApplies : Prop :=
  (∀ (w : CmdWord) (d : Mask), errorOf w d =
      if w.getLsbD 15 then some .illop
      else if hasReservedBit w then some .rsvd
      else match immLimit (opcOf w) with
        | some limit => if limit < (immOf w).toNat then some .range else none
        | none => none)
    ∧ (∀ d : Mask, errorOf 0x1029 d = some .rsvd ∧ errorOf 0xF800 d = some .illop)
    ∧ ∀ (c : Command) (s t : State), errorOf c.op c.data = none → runCommand c s = .next t → t.rsp.err = false

/-- R70: a command other than ENCB and LDM does the same whatever cmd_data is, and cmd_data is never checked. -/
def Obligations.UnusedDataOperandHasNoEffect : Prop :=
  ∀ (w : CmdWord) (d d' : Mask),
    errorOf w d = errorOf w d'
      ∧ (opcOf w ≠ 2 → opcOf w ≠ 4 → ∀ s : State, runCommand ⟨w, d⟩ s = runCommand ⟨w, d'⟩ s)

/-! ### The encoder (40_encoder.md) -/

/-- R85: ENCCLR, its word, its errors, its effect and its frame. -/
def Obligations.EncclrClearsTheEncoder : Prop :=
  (∀ d : Mask, decode 0x0800 d = .ok .encclr) ∧ RejectsNonzero 1 0 11
    ∧ ∀ s : State, ∃ t : State, exec .encclr s = .next t ∧ t.acc = 0 ∧ t.cnt = 0 ∧ Responds 0 t
        ∧ KeepsMasksBut [] s t ∧ KeepsCard s t ∧ KeepsDecoded s t ∧ KeepsStatus s t ∧ KeepsOutside s t

/-- R86: ENCB, its word, its errors, its effect and its frame. With `a` lanes accepted, bit `i` of ACC becomes 1
exactly if it was 1 or one of the lanes 0 to a-1 is ALPHABET[i]; CNT grows by `a`. MODEL'S CHOICE (log entry 13): in a
state with CNT above MAX_LEN, which no run reaches, `a` is 0. -/
def Obligations.EncbScansTheCountedLanes : Prop :=
  (∀ (n : BitVec 5) (d : Mask), n ≤ 8 → decode (0x1000 ||| n.setWidth 16) d = .ok (.encb n d))
    ∧ RejectsNonzero 2 5 6 ∧ RejectsAbove 2 8
    ∧ ∀ (n : BitVec 5) (d : Mask) (s : State), n ≤ 8 → ∃ t : State, exec (.encb n d) s = .next t
        ∧ (∀ i : Fin 64, t.acc.getLsbD i.val =
            (s.acc.getLsbD i.val || decide (∃ j, j < acceptedLanes n.toNat s ∧ lane d j = s.build.symbolAt i)))
        ∧ t.cnt.toNat = s.cnt.toNat + acceptedLanes n.toNat s
        ∧ acceptedLanes n.toNat s = min n.toNat (s.build.maxLen.toNat - s.cnt.toNat)
        ∧ Responds t.acc t
        ∧ KeepsMasksBut [] s t ∧ KeepsCard s t ∧ KeepsDecoded s t ∧ KeepsStatus s t ∧ KeepsOutside s t

/-- R87: ENCST, its word, its errors, its effect and its frame. -/
def Obligations.EncstStoresTheAccumulator : Prop :=
  (∀ (rd : MReg) (d : Mask), decode (0x1800 ||| indexAt 9 rd) d = .ok (.encst rd)) ∧ RejectsNonzero 3 0 9
    ∧ ∀ (rd : MReg) (s : State), ∃ t : State, exec (.encst rd) s = .next t ∧ WritesMask rd s.acc s t

/-- R80, R81: bit `i` of hit(b) is 1 exactly when ALPHABET[i] = b; at most one bit is 1; position_of(b) is that bit's
position, or "not found" exactly when hit(b) = 0. -/
def Obligations.HitVectorIsTheLookup : Prop :=
  ∀ (b : Build) (x : Byte),
    (∀ i : Fin 64, (hit b x).getLsbD i.val = true ↔ b.symbolAt i = x)
      ∧ popcount (hit b x) ≤ 1
      ∧ (hit b x = 0 ∨ ∃! i : Fin 64, hit b x = 1#64 <<< i.val)
      ∧ (∀ i : Fin 64, positionOf b x = some i ↔ hit b x = 1#64 <<< i.val)
      ∧ (positionOf b x = none ↔ hit b x = 0)

/-- R83: encode(s) as a set: bit `i` is 1 exactly when some byte of `s` is ALPHABET[i]; the empty sequence gives 0;
it is the OR of the hit vectors; only the set of byte values matters. -/
def Obligations.EncodeFoldsIntoASet : Prop :=
  ∀ b : Build,
    encodeBytes b [] = 0
      ∧ (∀ (x : Byte) (s : List Byte), encodeBytes b (x :: s) = hit b x ||| encodeBytes b s)
      ∧ (∀ (s : List Byte) (i : Fin 64), (encodeBytes b s).getLsbD i.val = true ↔ b.symbolAt i ∈ s)
      ∧ ∀ s t : List Byte, (∀ x, x ∈ s ↔ x ∈ t) → encodeBytes b s = encodeBytes b t

/-- R84: a session of ENCB commands after ENCCLR, or from any state whose encoder is clear as reset leaves it, ends
with ACC = encode of the first MAX_LEN bytes of the stream and CNT their number. -/
def Obligations.SessionEncodesTheFirstMaxLenBytes : Prop :=
  ∀ (cmds : List (BitVec 5 × Mask)) (s : State), (∀ c ∈ cmds, c.1 ≤ 8) →
    (∃ t : State, execAll (.encclr :: encbs cmds) s = .next t
        ∧ t.acc = encodeBytes s.build ((streamOf cmds).take s.build.maxLen.toNat)
        ∧ t.cnt.toNat = min (streamOf cmds).length s.build.maxLen.toNat)
      ∧ (s.acc = 0 → s.cnt = 0 → ∃ t : State, execAll (encbs cmds) s = .next t
        ∧ t.acc = encodeBytes s.build ((streamOf cmds).take s.build.maxLen.toNat)
        ∧ t.cnt.toNat = min (streamOf cmds).length s.build.maxLen.toNat)

/-! ### The decoder (41_decoder.md) -/

/-- R100: decode(A) lists the set bits from position 63 down: the symbol of a set bit `p` stands at the index that
counts the set bits above `p`, and there is nothing else in the list. -/
def Obligations.DecodeListsTheMembersDescending : Prop :=
  ∀ (b : Build) (a : Mask),
    (∀ p : Fin 64, a.getLsbD p.val = true → (decodeMask b a)[popcount (a >>> (p.val + 1))]? = some (b.symbolAt p))
      ∧ ∀ (k : Nat) (x : Byte), (decodeMask b a)[k]? = some x →
          ∃ p : Fin 64, a.getLsbD p.val = true ∧ popcount (a >>> (p.val + 1)) = k ∧ b.symbolAt p = x

/-- R103: the decoded length is the number of set bits, over all 64 positions. -/
def Obligations.DecodedLengthIsTheCardinality : Prop :=
  ∀ (b : Build) (a : Mask),
    (decodeMask b a).length = popcount a
      ∧ popcount a = (Finset.univ.filter fun i : Fin 64 => a.getLsbD i.val = true).card
      ∧ ∀ i : Fin 64, b.symbolAt i ∈ decodeMask b a ↔ a.getLsbD i.val = true

/-- R101: DEC, its word, its errors, its effect and its frame. -/
def Obligations.DecWritesTheDecodedSequence : Prop :=
  (∀ (ra : MReg) (d : Mask), decode (0x6000 ||| indexAt 7 ra) d = .ok (.dec ra))
    ∧ RejectsNonzero 12 9 2 ∧ RejectsNonzero 12 0 7
    ∧ ∀ (ra : MReg) (s : State), ∃ t : State, exec (.dec ra) s = .next t
        ∧ (∀ k : Nat, k < 64 → readDout k t = if k < (decodeMask s.build (readM ra s)).length
            then (decodeMask s.build (readM ra s)).getD k 0 else 0)
        ∧ t.dlen.toNat = (decodeMask s.build (readM ra s)).length
        ∧ Responds (BitVec.ofNat 64 (decodeMask s.build (readM ra s)).length) t
        ∧ KeepsMasksBut [] s t ∧ KeepsEncoder s t ∧ KeepsCard s t ∧ KeepsStatus s t ∧ KeepsOutside s t

/-- R102: RDDEC, its word, its errors, its effect and its frame: lane `j` of the response is DOUT[8k+j]. -/
def Obligations.RddecReadsEightBytes : Prop :=
  (∀ (k : BitVec 5) (d : Mask), k ≤ 7 → decode (0x6800 ||| k.setWidth 16) d = .ok (.rddec k))
    ∧ RejectsNonzero 13 5 6 ∧ RejectsAbove 13 7
    ∧ ∀ (k : BitVec 5) (s : State), k ≤ 7 → ∃ (t : State) (v : Mask), exec (.rddec k) s = .next t
        ∧ (∀ j : Nat, j < 8 → lane v j = readDout (8 * k.toNat + j) s) ∧ OnlyResponds v s t

/-- R104: DOUT and DLEN stay as the last DEC left them, whatever commands but DEC follow; and decoding the same mask
again gives the same. MODEL'S CHOICE (log entry 12): that terms with an immediate out of range, which the decoder never
yields, keep them too. -/
def Obligations.DecodedSequenceIsASnapshot : Prop :=
  (∀ (ra : MReg) (is : List Instr) (s t u : State), exec (.dec ra) s = .next t → (∀ i ∈ is, ∀ q : MReg, i ≠ .dec q) →
      execAll is t = .next u →
        u.dlen.toNat = popcount (readM ra s) ∧ ∀ k : Nat, k < 64 → readDout k u = (decodeMask s.build (readM ra s)).getD k 0)
    ∧ ∀ (ra q : MReg) (s t s' t' : State), exec (.dec ra) s = .next t → exec (.dec q) s' = .next t' →
        readM ra s = readM q s' → s.build = s'.build → t.dlen = t'.dlen ∧ t.dout = t'.dout

/-- R106: encode(decode(A)) = A; and decode(encode(s)) of distinct symbols of the alphabet in any order is those
symbols in descending position order. -/
def Obligations.EncodeAndDecodeRoundTrip : Prop :=
  ∀ b : Build,
    (∀ a : Mask, encodeBytes b (decodeMask b a) = a)
      ∧ ∀ s : List Byte, s.Nodup → (∀ x ∈ s, ∃ i : Fin 64, b.symbolAt i = x) → s.length ≤ b.maxLen.toNat →
          (decodeMask b (encodeBytes b s)).Perm s
            ∧ (decodeMask b (encodeBytes b s)).Pairwise fun x y =>
                ∃ i j : Fin 64, b.symbolAt i = x ∧ b.symbolAt j = y ∧ j < i

/-! ### The set-algebra unit (42_set_algebra.md) -/

/-- R121: AND, its word, its errors, its effect and its frame. -/
def Obligations.AndWritesTheIntersection : Prop :=
  (∀ (rd ra rb : MReg) (d : Mask),
      decode (0x3000 ||| indexAt 9 rd ||| indexAt 7 ra ||| indexAt 5 rb) d = .ok (.and rd ra rb))
    ∧ RejectsNonzero 6 0 5
    ∧ ∀ (rd ra rb : MReg) (s : State), ∃ t : State, exec (.and rd ra rb) s = .next t
        ∧ WritesMask rd (readM ra s &&& readM rb s) s t

/-- R122: OR, its word, its errors, its effect and its frame. -/
def Obligations.OrWritesTheUnion : Prop :=
  (∀ (rd ra rb : MReg) (d : Mask),
      decode (0x3800 ||| indexAt 9 rd ||| indexAt 7 ra ||| indexAt 5 rb) d = .ok (.or rd ra rb))
    ∧ RejectsNonzero 7 0 5
    ∧ ∀ (rd ra rb : MReg) (s : State), ∃ t : State, exec (.or rd ra rb) s = .next t
        ∧ WritesMask rd (readM ra s ||| readM rb s) s t

/-- R123, R128: XOR, its word, its errors, its effect and its frame; it is the source's symmetric difference. -/
def Obligations.XorWritesTheSymmetricDifference : Prop :=
  (∀ (rd ra rb : MReg) (d : Mask),
      decode (0x4000 ||| indexAt 9 rd ||| indexAt 7 ra ||| indexAt 5 rb) d = .ok (.xor rd ra rb))
    ∧ RejectsNonzero 8 0 5
    ∧ (∀ a b : Mask, (a &&& ~~~b) ||| (b &&& ~~~a) = a ^^^ b)
    ∧ ∀ (rd ra rb : MReg) (s : State), ∃ t : State, exec (.xor rd ra rb) s = .next t
        ∧ WritesMask rd (readM ra s ^^^ readM rb s) s t

/-- R124: NOT, its word, its errors, its effect and its frame. -/
def Obligations.NotWritesTheComplement : Prop :=
  (∀ (rd ra : MReg) (d : Mask), decode (0x4800 ||| indexAt 9 rd ||| indexAt 7 ra) d = .ok (.not rd ra))
    ∧ RejectsNonzero 9 0 7
    ∧ ∀ (rd ra : MReg) (s : State), ∃ t : State, exec (.not rd ra) s = .next t ∧ WritesMask rd (~~~(readM ra s)) s t

/-- R125: ANDN, its word, its errors, its effect and its frame. -/
def Obligations.AndnWritesTheDifference : Prop :=
  (∀ (rd ra rb : MReg) (d : Mask),
      decode (0x5000 ||| indexAt 9 rd ||| indexAt 7 ra ||| indexAt 5 rb) d = .ok (.andn rd ra rb))
    ∧ RejectsNonzero 10 0 5
    ∧ ∀ (rd ra rb : MReg) (s : State), ∃ t : State, exec (.andn rd ra rb) s = .next t
        ∧ WritesMask rd (readM ra s &&& ~~~(readM rb s)) s t

/-- R126: CARD, its word, its errors, its effect and its frame: the register CARD and the response are the number of
set bits, as R10 defines popcount, and 64 fits. -/
def Obligations.CardCountsTheMembers : Prop :=
  (∀ (ra : MReg) (d : Mask), decode (0x5800 ||| indexAt 7 ra) d = .ok (.card ra))
    ∧ RejectsNonzero 11 9 2 ∧ RejectsNonzero 11 0 7
    ∧ ∀ (ra : MReg) (s : State), ∃ t : State, exec (.card ra) s = .next t
        ∧ t.card.toNat = (Finset.univ.filter fun i : Fin 64 => (readM ra s).getLsbD i.val = true).card
        ∧ Responds (t.card.setWidth 64) t
        ∧ KeepsMasksBut [] s t ∧ KeepsEncoder s t ∧ KeepsDecoded s t ∧ KeepsStatus s t ∧ KeepsOutside s t

/-- R127: the laws the commands satisfy, the commutative ones said of the commands themselves. -/
def Obligations.SetAlgebraLaws : Prop :=
  (∀ (rd ra rb : MReg) (s : State),
      exec (.and rd ra rb) s = exec (.and rd rb ra) s ∧ exec (.or rd ra rb) s = exec (.or rd rb ra) s
        ∧ exec (.xor rd ra rb) s = exec (.xor rd rb ra) s)
    ∧ (∀ (rd ra q : MReg) (s t u : State), exec (.not rd ra) s = .next t → exec (.not q rd) t = .next u →
        readM q u = readM ra s)
    ∧ (∀ (rd ra : MReg) (s t : State),
        (exec (.andn rd ra ra) s = .next t → readM rd t = 0) ∧ (exec (.xor rd ra ra) s = .next t → readM rd t = 0))
    ∧ ∀ a b : Mask,
        popcount (~~~a) = 64 - popcount a
          ∧ popcount (a ||| b) + popcount (a &&& b) = popcount a + popcount b
          ∧ popcount (a ^^^ b) = popcount (a &&& ~~~b) + popcount (b &&& ~~~a)

/-! ### Data transfer and control (43_transfer_control.md) -/

/-- R140: NOP, its word, its errors, its effect and its frame. -/
def Obligations.NopOnlyResponds : Prop :=
  (∀ d : Mask, decode 0x0000 d = .ok .nop) ∧ RejectsNonzero 0 0 11
    ∧ ∀ s : State, ∃ t : State, exec .nop s = .next t ∧ OnlyResponds 0 s t

/-- R141: LDM, its word, its errors, its effect and its frame. -/
def Obligations.LdmLoadsTheDataOperand : Prop :=
  (∀ (rd : MReg) (d : Mask), decode (0x2000 ||| indexAt 9 rd) d = .ok (.ldm rd d)) ∧ RejectsNonzero 4 0 9
    ∧ ∀ (rd : MReg) (d : Mask) (s : State), ∃ t : State, exec (.ldm rd d) s = .next t ∧ WritesMask rd d s t

/-- R142: RDM, its word, its errors, its effect and its frame. -/
def Obligations.RdmReadsAMaskRegister : Prop :=
  (∀ (ra : MReg) (d : Mask), decode (0x2800 ||| indexAt 7 ra) d = .ok (.rdm ra))
    ∧ RejectsNonzero 5 9 2 ∧ RejectsNonzero 5 0 7
    ∧ ∀ (ra : MReg) (s : State), ∃ t : State, exec (.rdm ra) s = .next t ∧ OnlyResponds (readM ra s) s t

/-- R143, R29, R30: RDSR, its word, its errors, its frame, and the value of each special register: STATUS has ERR in bit
0, ECODE in bits 3:1, 0 above; PARAM has N_SYM in bits 7:0, NMR in 15:8, MAX_LEN in 31:16, LANES in 39:32, 0 above.
MODEL'S CHOICE (log entry 20): that RDSR 0 reads an ECODE R28 calls illegal, which no run reaches, as it stands. -/
def Obligations.RdsrReadsTheSpecialRegisters : Prop :=
  (∀ (n : BitVec 5) (d : Mask), n ≤ 5 → decode (0x7000 ||| n.setWidth 16) d = .ok (.rdsr n))
    ∧ RejectsNonzero 14 5 6 ∧ RejectsAbove 14 5
    ∧ ∀ (n : BitVec 5) (s : State), n ≤ 5 → ∃ (t : State) (v : Mask), exec (.rdsr n) s = .next t
        ∧ OnlyResponds v s t
        ∧ (n = 0 → v.getLsbD 0 = s.status.err ∧ v.extractLsb' 1 3 = s.status.ecode ∧ v.extractLsb' 4 60 = 0)
        ∧ (n = 1 → v = s.acc)
        ∧ (n = 2 → v = s.cnt.setWidth 64)
        ∧ (n = 3 → v = s.card.setWidth 64)
        ∧ (n = 4 → v = s.dlen.setWidth 64)
        ∧ (n = 5 → v.extractLsb' 0 8 = 64 ∧ v.extractLsb' 8 8 = 4 ∧ v.extractLsb' 16 16 = s.build.maxLen
            ∧ v.extractLsb' 32 8 = 8 ∧ v.extractLsb' 40 24 = 0)

/-- R144: CLRSTAT, its word, its errors, its effect and its frame; an erroneous CLRSTAT does not clear STATUS. -/
def Obligations.ClrstatClearsStatus : Prop :=
  (∀ d : Mask, decode 0x7800 d = .ok .clrstat) ∧ RejectsNonzero 15 0 11
    ∧ (∀ s : State, ∃ t : State, exec .clrstat s = .next t ∧ t.status.err = false ∧ t.status.ecode = 0
        ∧ Responds 0 t ∧ KeepsMasksBut [] s t ∧ KeepsEncoder s t ∧ KeepsCard s t ∧ KeepsDecoded s t
        ∧ KeepsOutside s t)
    ∧ ∀ (w : CmdWord) (d : Mask) (s t : State), opcOf w = 15 → w ≠ 0x7800 → runCommand ⟨w, d⟩ s = .next t →
        t.status.err = true ∧ t.status.ecode = if s.status.err then s.status.ecode else 2

/-! ### Errors (60_exceptions.md) -/

/-- R65, R163: every word with bit 15 set is erroneous with code ILLOP whatever its other bits are, and the reserved
row's execution records that and changes nothing else. MODEL'S CHOICE (log entry 11), not R65's or R67's: that such a
word decodes to an instruction, `reserved`, rather than to Error(ILLOP). -/
def Obligations.ReservedOpcodesRaiseIllop : Prop :=
  (∀ (w : CmdWord) (d : Mask), w.getLsbD 15 = true →
      decode w d = .ok (.reserved (w.extractLsb' 0 15)) ∧ errorOf w d = some .illop)
    ∧ ∀ (bits : BitVec 15) (s : State), ∃ t : State, exec (.reserved bits) s = .next t
        ∧ t.status.err = true ∧ t.status.ecode = (if s.status.err then s.status.ecode else 1)
        ∧ t.rsp = ⟨true, 0, true⟩ ∧ KeepsMasksBut [] s t ∧ KeepsEncoder s t ∧ KeepsCard s t ∧ KeepsDecoded s t
        ∧ KeepsOutside s t

/-- R163, R161: an erroneous command completes, records the first error's code, answers 0 with the error indication,
and changes nothing else; the codes are ILLOP 1, RSVD 2, RANGE 3. -/
def Obligations.ErroneousCommandRecordsItsError : Prop :=
  errCode .illop = 1 ∧ errCode .rsvd = 2 ∧ errCode .range = 3
    ∧ ∀ (c : Command) (e : ErrCode) (s : State), errorOf c.op c.data = some e →
        ∃ t : State, runCommand c s = .next t
          ∧ t.status.err = true ∧ t.status.ecode = (if s.status.err then s.status.ecode else errCode e)
          ∧ t.rsp = ⟨true, 0, true⟩ ∧ KeepsMasksBut [] s t ∧ KeepsEncoder s t ∧ KeepsCard s t ∧ KeepsDecoded s t
          ∧ KeepsOutside s t

/-- R64: an ENCB, RDDEC or RDSR whose immediate is out of range raises RANGE and changes only STATUS and RSP. MODEL'S
CHOICE (log entry 12): that `exec` of such a term, which the decoder never yields, raises the error its word has. -/
def Obligations.OutOfRangeImmediatesRaiseRange : Prop :=
  ∀ (n : BitVec 5) (d : Mask) (s : State),
    (8 < n → exec (.encb n d) s = .next (raiseError .range s))
      ∧ (7 < n → exec (.rddec n) s = .next (raiseError .range s))
      ∧ (5 < n → exec (.rdsr n) s = .next (raiseError .range s))

/-- R165: ERR is sticky and ECODE keeps the first code, until CLRSTAT or reset; no command that is not erroneous moves
them but CLRSTAT; and STATUS changes nothing in how a command executes, except for what RDSR 0 reads. -/
def Obligations.StatusIsStickyAndInert : Prop :=
  (∀ (c : Command) (s t : State), runCommand c s = .next t → decode c.op c.data ≠ .ok .clrstat →
      (s.status.err = true → t.status = s.status) ∧ (errorOf c.op c.data = none → t.status = s.status))
    ∧ (∀ (s t : State), exec .clrstat s = .next t → t.status = ⟨false, 0⟩)
    ∧ (∀ (s t : State), (nextPorts s).rst = true → step s = .next t → t.status = ⟨false, 0⟩)
    ∧ ∀ (c : Command) (s : State) (st : Status), decode c.op c.data ≠ .ok (.rdsr 0) →
        ∃ t u : State, runCommand c s = .next t ∧ runCommand c (setStatus st s) = .next u
          ∧ setStatus t.status u = t

/-- R167, R31: a well-formed command that is not a reserved opcode never raises an error, whatever its data and the
registers: unknown bytes, dropped bytes, an empty input, the masks 0 and all ones set nothing. MODEL'S CHOICE (log entry
13): the same for ENCB in a state with CNT above MAX_LEN, which no run reaches. -/
def Obligations.WellFormedCommandsSetNoError : Prop :=
  ∀ (i : Instr) (s : State), i.WellFormed → (∀ bits : BitVec 15, i ≠ .reserved bits) →
    ∃ t : State, exec i s = .next t ∧ t.rsp.pending = true ∧ t.rsp.err = false
      ∧ (i ≠ .clrstat → t.status = s.status)

/-! ### The machine as a whole (10_state.md, 20_memory.md) -/

/-- R20, R25, R26, R27: each register is written by the commands R20's table names and by no other. MODEL'S CHOICE (log
entry 12): that a term with an immediate out of range, which the decoder never yields, writes STATUS only. -/
def Obligations.OnlyTheNamedCommandsWriteARegister : Prop :=
  ∀ (i : Instr) (s t : State), exec i s = .next t →
    (∀ r : MReg, readM r t ≠ readM r s →
        i = .encst r ∨ (∃ d, i = .ldm r d) ∨ (∃ ra rb, i = .and r ra rb) ∨ (∃ ra rb, i = .or r ra rb)
          ∨ (∃ ra rb, i = .xor r ra rb) ∨ (∃ ra, i = .not r ra) ∨ ∃ ra rb, i = .andn r ra rb)
      ∧ (t.acc ≠ s.acc ∨ t.cnt ≠ s.cnt → i = .encclr ∨ ∃ n d, i = .encb n d)
      ∧ (t.card ≠ s.card → ∃ ra, i = .card ra)
      ∧ (t.dlen ≠ s.dlen ∨ t.dout ≠ s.dout → ∃ ra, i = .dec ra)
      ∧ (t.status ≠ s.status → i = .clrstat ∨ t.rsp.err = true)

/-- R47: every command word is a command of the opcode map or erroneous, and leads every state to exactly one next
state with a response. DEDUCED, not R47's, which speaks of the command-level function: that every clock edge of every
state leads to a next state (log entry 15, on log entry 1's step). MODEL'S CHOICE (log entry 13): that ENCB completes in
a state with CNT above MAX_LEN too; R47 speaks of states that satisfy R35. -/
def Obligations.TheMachineIsTotal : Prop :=
  (∀ (c : Command) (s : State), ∃! t : State, runCommand c s = .next t ∧ t.rsp.pending = true)
    ∧ (∀ (w : CmdWord) (d : Mask), (∃ e, errorOf w d = some e) ∨
        ∃ i : Instr, decode w d = .ok i ∧ i.WellFormed ∧ ∀ bits : BitVec 15, i ≠ .reserved bits)
    ∧ ∀ s : State, ∃ t : State, step s = .next t

/-- R34: every register right after reset, of the machine's reset state and of any build. MODEL'S CHOICE (log entry 22),
not R34's, which gives DOUT[0..63]: that `readDout` of an index above 63 is 0 as well. -/
def Obligations.ResetLeavesTheResetValues : Prop :=
  (∀ (b : Build) (o : Offer) (h : List PortIn) (n : Nat),
      (∀ r : MReg, readM r (State.resetOf b o h n) = 0)
        ∧ (∀ k : Nat, readDout k (State.resetOf b o h n) = 0)
        ∧ (State.resetOf b o h n).acc = 0 ∧ (State.resetOf b o h n).cnt = 0 ∧ (State.resetOf b o h n).card = 0
        ∧ (State.resetOf b o h n).dlen = 0 ∧ (State.resetOf b o h n).status = ⟨false, 0⟩
        ∧ (State.resetOf b o h n).rsp = ⟨false, 0, false⟩ ∧ (State.resetOf b o h n).build = b)
    ∧ ∃ (b : Build) (o : Offer) (h : List PortIn) (n : Nat), State.reset = State.resetOf b o h n

/-- The invariants of R35, R28, R42 and R44 hold right after reset. -/
def Obligations.InvariantHoldsAtReset : Prop := Inv State.reset

/-- R35: every step keeps the invariants, from every state that has them. -/
def Obligations.EveryStepKeepsTheInvariant : Prop :=
  ∀ s t : State, Inv s → step s = .next t → Inv t

/-- R8, R30: no step changes the build, so neither ALPHABET nor what RDSR 5 reads. -/
def Obligations.BuildNeverChanges : Prop :=
  ∀ (n : Nat) (s t : State), runEdges n s = .next t → t.build = s.build ∧ paramWord t.build = paramWord s.build

/-- R7, R6: parameters are refused exactly when the ALPHABET is not injective or MAX_LEN is outside 1 to 65535; an
accepted build has the parameters given. -/
def Obligations.BadParametersAreRefused : Prop :=
  ∀ (a : Vector Byte 64) (n : Nat),
    (Build.make? a n = none ↔ (∃ i j : Fin 64, a[i] = a[j] ∧ i ≠ j) ∨ n < 1 ∨ 65535 < n)
      ∧ ∀ b : Build, Build.make? a n = some b → b.alphabet = a ∧ b.maxLen.toNat = n

/-- R49 as the spec words it, "Every command except ENCB is idempotent when repeated with nothing between [derived
from the command rules]". EXPECTED TO FAIL: the command rules themselves contradict it (NOT m0, m0 twice gives M[0]
back, by R124); the model follows the command rules (log entry 19). -/
def Obligations.EveryCommandButEncbIsIdempotent : Prop :=
  ∀ (i : Instr) (s t : State), (∀ n d, i ≠ .encb n d) → exec i s = .next t → exec i t = .next t

/-- R49, as far as the command rules bear it out. Every command but ENCB is idempotent, save three forms that read back
what they wrote: XOR with its destination as exactly one source, NOT in place, and ANDN with its destination as second
source only. Of these, what R123, R124 and R125 give for the repetition (log entry 19). ENCB is idempotent in ACC.
MODEL'S CHOICE: the same for terms with an immediate out of range (log entry 12) and, for ENCB, in a state with CNT above
MAX_LEN (log entry 13); no run meets either. -/
def Obligations.CommandsWithAnUnreadDestinationAreIdempotent : Prop :=
  (∀ (i : Instr) (s t : State), (∀ n d, i ≠ .encb n d) →
      (∀ rd ra rb : MReg, i = .xor rd ra rb → (rd = ra ↔ rd = rb)) → (∀ rd ra : MReg, i = .not rd ra → rd ≠ ra) →
      (∀ rd ra rb : MReg, i = .andn rd ra rb → rd = rb → rd = ra) →
      exec i s = .next t → exec i t = .next t)
    ∧ (∀ (rd q : MReg) (s : State), rd ≠ q →
        (∃ t u : State, exec (.xor rd rd q) s = .next t ∧ exec (.xor rd rd q) t = .next u ∧ readM rd u = readM rd s)
          ∧ (∃ t u : State, exec (.xor rd q rd) s = .next t ∧ exec (.xor rd q rd) t = .next u
              ∧ readM rd u = readM rd s)
          ∧ ∃ t u : State, exec (.andn rd q rd) s = .next t ∧ exec (.andn rd q rd) t = .next u
              ∧ readM rd t = readM q s &&& ~~~(readM rd s) ∧ readM rd u = readM q s &&& readM rd s)
    ∧ (∀ (rd : MReg) (s : State), ∃ t u : State, exec (.not rd rd) s = .next t ∧ exec (.not rd rd) t = .next u
        ∧ readM rd t = ~~~(readM rd s) ∧ readM rd u = readM rd s)
    ∧ ∀ (n : BitVec 5) (d : Mask) (s t u : State), n ≤ 8 → exec (.encb n d) s = .next t →
        exec (.encb n d) t = .next u → u.acc = t.acc

/-! ### The handshake and reset (20_memory.md, 70_reset_and_hazards.md) -/

/-- R46: a step at whose edge the command in flight is due runs that command: the instruction its word decodes to, or
the error its word has, on the state with the port inputs taken and nothing in flight (log entry 3: it reads the state
at that edge). MODEL'S CHOICE: that a reserved word runs as an instruction (log entry 11), that the step does so
in a state with a response pending as well, which R42 excludes (log entry 16), and the last clause, that with the opcode
table's word placed by `State.withFetchWord` the very next step runs it (log entry 14). -/
def Obligations.StepRunsTheDecodedCommand : Prop :=
  (∀ (s : State) (c : Command), (nextPorts s).rst = false → s.inflight = some ⟨c, 0⟩ →
      (∀ i : Instr, decode c.op c.data = .ok i →
        step s = exec i { s with
          host := s.host.tail, inflight := none, offer := offerAfter (nextPorts s) s.offer })
      ∧ ∀ e : ErrCode, decode c.op c.data = .error e →
        step s = .next (raiseError e { s with
          host := s.host.tail, inflight := none, offer := offerAfter (nextPorts s) s.offer }))
    ∧ ∀ (s : State) (nbits w : Nat) (i : Instr), decodeTableWord nbits w = some i →
        step (s.withFetchWord nbits w) = exec i { s with inflight := none, offer := .idle }

/-- R42, R40, R182: the output ports: cmd_ready exactly when rst = 0, nothing executes and no response is pending;
rsp_data and rsp_err show RSP; right after reset the FBCU is ready. DEDUCED (log entry 10): rsp_valid is 1 exactly when
rst = 0 and a response is pending; R40 says rsp_valid equals RSP.pending and R181 that it is 0 while rst = 1, which differ
at rst = 1 with a response pending. -/
def Obligations.OutputPortsFollowTheState : Prop :=
  (∀ (rst : Bool) (s : State),
      ((outputs rst s).cmdReady = true ↔ rst = false ∧ s.inflight = none ∧ s.rsp.pending = false)
        ∧ ((outputs rst s).rspValid = true ↔ rst = false ∧ s.rsp.pending = true)
        ∧ (outputs rst s).rspData = s.rsp.data ∧ (outputs rst s).rspErr = s.rsp.err)
    ∧ ∀ s t : State, (nextPorts s).rst = true → step s = .next t → (outputs false t).cmdReady = true

/-- R41, R42: an edge accepts a command exactly if rst = 0, cmd_valid = 1 and cmd_ready = 1; the command accepted is
the one sampled, if the host has held it (R52); how long it executes is log entry 4's free value. Any other edge puts no
command into execution: one that executes after it did so before. R20, R41, R46: an edge at which the FBCU is ready and
nothing is presented changes nothing but the schedule; that it also ends the host's offer is log entry 6's deduction.
MODEL'S CHOICE (log entry 16): that a command in flight beside a pending response, which R42 excludes, goes on executing
like any other. -/
def Obligations.CommandIsAcceptedExactlyWhenReadyAndValid : Prop :=
  ∀ s t : State, step s = .next t →
    ((nextPorts s).cmdValid = true → cmdReady (nextPorts s).rst s = true →
        ∃ c : Command, t.inflight = some ⟨c, extraCyclesOf c s⟩
          ∧ registersOf t = registersOf s ∧ t.rsp = s.rsp
          ∧ (s.offer = .idle ∨ s.offer = .held (presented (nextPorts s)) → c = presented (nextPorts s)))
      ∧ ((nextPorts s).cmdValid = false ∨ cmdReady (nextPorts s).rst s = false →
        ∀ f : InFlight, t.inflight = some f → s.inflight = some ⟨f.cmd, f.wait + 1⟩)
      ∧ ((nextPorts s).cmdValid = false → cmdReady (nextPorts s).rst s = true →
        registersOf t = registersOf s ∧ t.rsp = s.rsp ∧ t.inflight = none ∧ t.build = s.build ∧ t.draws = s.draws
          ∧ t.offer = .idle ∧ t.host = s.host.tail)

/-- R52, I5: if the host changes the command it presents before it is accepted, the command accepted is a free value:
MODEL'S CHOICE (log entry 5) of how to leave it open and of what it may depend on; how long it executes is log entry
4's. What `offer` records of the host is OfferFollowsThePorts. -/
def Obligations.ChangedOfferIsAcceptedAsAFreeValue : Prop :=
  ∀ (s t : State) (c : Command) (cmds : List Command),
    (nextPorts s).cmdValid = true → cmdReady (nextPorts s).rst s = true →
      (s.offer = .changed cmds ∨ s.offer = .held c ∧ c ≠ presented (nextPorts s) ∧ cmds = [c]) → step s = .next t →
        ∃ d : Command, d = Config.unstableCommand s.draws (presented (nextPorts s) :: cmds) (registersOf s) s.build
          ∧ t.inflight = some ⟨d, extraCyclesOf d s⟩

/-- What the machine's record of the host's offer holds, for every edge: idle after an accepting edge and after one at
which nothing is presented; otherwise the command presented, as long as it stays the same, and `changed`, with the
commands presented, from the edge on at which it differs (R52). MODEL'S CHOICE: the record itself (log entry 5), that a
withdrawn command ends the offer (log entry 6), and that edges with rst = 1 count like any other (log entry 7). -/
def Obligations.OfferFollowsThePorts : Prop :=
  ∀ s t : State, step s = .next t →
    ((nextPorts s).cmdValid = false → t.offer = .idle)
      ∧ ((nextPorts s).cmdValid = true → cmdReady (nextPorts s).rst s = true → t.offer = .idle)
      ∧ ((nextPorts s).cmdValid = true → cmdReady (nextPorts s).rst s = false →
        (s.offer = .idle → t.offer = .held (presented (nextPorts s)))
          ∧ (s.offer = .held (presented (nextPorts s)) → t.offer = s.offer)
          ∧ (∀ c : Command, s.offer = .held c → c ≠ presented (nextPorts s) → t.offer = .changed [presented (nextPorts s), c])
          ∧ (∀ cmds : List Command, s.offer = .changed cmds → t.offer = .changed (presented (nextPorts s) :: cmds)))

/-- R41, R52: a host that presents nothing at one edge, and from the next edge on presents `c` unchanged, has `c` accepted
at every ready edge among those, the last one here, whatever state it started from and however long it waited. How long
`c` then executes is log entry 4's free value; that an edge without an offer begins a new one is log entry 6's
deduction. -/
def Obligations.HeldCommandIsTheOneAccepted : Prop :=
  ∀ (c : Command) (first last : PortIn) (waits rest : List PortIn) (s t : State),
    s.host = first :: (waits ++ last :: rest) → first.cmdValid = false →
      (∀ p ∈ waits, p.cmdValid = true ∧ presented p = c) → last.cmdValid = true → presented last = c →
        runEdges (waits.length + 1) s = .next t → cmdReady last.rst t = true →
          ∃ u : State, step t = .next u ∧ u.inflight = some ⟨c, extraCyclesOf c t⟩
            ∧ registersOf u = registersOf t ∧ u.rsp = t.rsp

/-- R20, R43, R46: the registers move only at an edge that ends a command's execution or at a reset edge; at any other
edge, an idle one too, they stay, and RSP stays unless a pending response is taken. DEDUCED (log entry 9): a taken
response keeps RSP.data and RSP.err. MODEL'S CHOICE (log entry 16): with a command in flight beside a pending response,
which R42 excludes, RSP stays even where rsp_ready = 1. -/
def Obligations.RegistersMoveOnlyWhenAnExecutionEnds : Prop :=
  ∀ s t : State, step s = .next t → (nextPorts s).rst = false → (∀ c : Command, s.inflight ≠ some ⟨c, 0⟩) →
    registersOf t = registersOf s ∧ t.build = s.build
      ∧ t.rsp = (if s.inflight = none ∧ s.rsp.pending = true ∧ (nextPorts s).rspReady = true
          then { s.rsp with pending := false } else s.rsp)

/-- R43, R42: a response stays as it is until an edge with rsp_ready = 1 takes it, and nothing else moves meanwhile.
DEDUCED (log entry 9): that taking it keeps RSP.data and RSP.err; R43 says only that RSP.pending becomes 0. -/
def Obligations.ResponseIsHeldUntilTaken : Prop :=
  ∀ s : State, OneOutstanding s → s.rsp.pending = true → (nextPorts s).rst = false →
    ∃ t : State, step s = .next t
      ∧ t.rsp = (if (nextPorts s).rspReady then { s.rsp with pending := false } else s.rsp)
      ∧ registersOf t = registersOf s ∧ t.inflight = none

/-- R46: while a command executes nothing of it shows: every register and RSP are as they were at the start, whatever
the host does short of reset. MODEL'S CHOICE: the same in a state with a response pending as well (log entry 16); past the
end of its schedule the host drives nothing (log entry 1). -/
def Obligations.ExecutionIsInvisibleUntilItEnds : Prop :=
  ∀ (n wait : Nat) (c : Command) (s : State), s.inflight = some ⟨c, wait⟩ → n ≤ wait →
    (∀ p ∈ s.host, p.rst = false) →
      ∃ t : State, runEdges n s = .next t ∧ registersOf t = registersOf s ∧ t.rsp = s.rsp
        ∧ t.inflight = some ⟨c, wait - n⟩ ∧ t.build = s.build

/-- R180, R181: an edge with rst = 1 gives every piece of state its reset value whatever the FBCU was doing: no command
in flight, no response pending; ALPHABET and PARAM are not affected. -/
def Obligations.ResetEdgeRestoresTheResetState : Prop :=
  ∀ s : State, (nextPorts s).rst = true →
    ∃ t : State, step s = .next t ∧ registersOf t = registersOf State.reset ∧ t.rsp = ⟨false, 0, false⟩
      ∧ t.inflight = none ∧ t.build = s.build
      ∧ (outputs true s).cmdReady = false ∧ (outputs true s).rspValid = false

/-- R185: a host that never takes a response blocks the FBCU for good: however long it runs, the response stays,
nothing is accepted and no register changes. MODEL'S CHOICE (log entry 1): past the end of its schedule the host drives
nothing, so it takes no response there either. -/
def Obligations.UntakenResponseBlocksTheUnit : Prop :=
  ∀ (n : Nat) (s : State), s.rsp.pending = true → s.inflight = none →
    (∀ p ∈ s.host, p.rst = false ∧ p.rspReady = false) →
      ∃ t : State, runEdges n s = .next t ∧ t.rsp = s.rsp ∧ t.inflight = none ∧ registersOf t = registersOf s
        ∧ cmdReady false t = false

/-- R45, R46: one command from a ready FBCU, presented for one edge and its response taken after the command has
executed: until then no response shows and no register moves; the response is that of the command-level function,
it comes at least one edge after the acceptance, and the registers end as that function leaves them. MODEL'S CHOICE: the
schedule waits for the latency of log entry 4, a free value, and reads R45's shortest latency as log entry 21 says;
`draws` is the model's own count (log entry 8). -/
def Obligations.CommandTransactionRefinesTheFunction : Prop :=
  ∀ (c : Command) (s u : State) (rest : List PortIn), Ready s →
    s.host = commandSchedule c (executionEdges c s) ++ rest → runCommand c s = .next u →
      (∀ k : Nat, k ≤ executionEdges c s → ∃ t : State, runEdges k s = .next t
          ∧ t.rsp.pending = false ∧ registersOf t = registersOf s)
        ∧ (∃ t : State, runEdges (executionEdges c s + 1) s = .next t ∧ t.rsp = u.rsp)
        ∧ ∃ t : State, runEdges (executionEdges c s + 2) s = .next t
          ∧ registersOf t = registersOf u ∧ Ready t ∧ t.host = rest ∧ t.build = s.build ∧ t.draws = s.draws + 1

/-- R51, R43: for the clocked machine driven by a host that presents a list of commands one after the other, the
responses the host takes are the command-level function's, one for each command, in the commands' order, and the
registers end as the left-to-right composition of that function leaves them. MODEL'S CHOICE: the schedule waits for the
latencies of log entry 4, free values, read as log entry 21 says. -/
def Obligations.SessionRefinesTheComposition : Prop :=
  ∀ (cs : List Command) (s u : State) (rest : List PortIn), Ready s →
    s.host = sessionSchedule cs s ++ rest → runCommands cs s = .next u →
      ∃ t : State, runEdges (sessionSchedule cs s).length s = .next t
        ∧ takenResponses (sessionSchedule cs s).length s = responsesOf cs s
        ∧ (responsesOf cs s).length = cs.length
        ∧ registersOf t = registersOf u ∧ Ready t ∧ t.host = rest ∧ t.build = s.build

/-! ### Pseudo-instructions (30_encoding.md) -/

/-- R72: every pseudo-instruction's expansion, and the c-th ENCB of ENCS: its count and its lanes. -/
def Obligations.PseudoInstructionsExpandAsListed : Prop :=
  (∀ rd ra rb : MReg,
      expandLine (.intersect rd ra rb) = [.and rd ra rb] ∧ expandLine (.union rd ra rb) = [.or rd ra rb]
        ∧ expandLine (.diff rd ra rb) = [.andn rd ra rb] ∧ expandLine (.symdiff rd ra rb) = [.xor rd ra rb]
        ∧ expandLine (.compl rd ra) = [.not rd ra] ∧ expandLine (.mov rd ra) = [.or rd ra ra]
        ∧ expandLine (.clr rd) = [.xor rd rd rd])
    ∧ (∀ (rd ra : MReg) (s : State), ∃ t u : State,
        execAll (expandLine (.mov rd ra)) s = .next t ∧ readM rd t = readM ra s
          ∧ execAll (expandLine (.clr rd)) s = .next u ∧ readM rd u = 0)
    ∧ (∀ (rd : MReg) (s : List Byte), expandLine (.encode rd s) = [.encclr] ++ expandLine (.encs s) ++ [.encst rd])
    ∧ ∀ s : List Byte, (expandLine (.encs s)).length = (s.length + 7) / 8
        ∧ ∀ c : Nat, c < (s.length + 7) / 8 → ∃ (n : BitVec 5) (d : Mask), (expandLine (.encs s))[c]? = some (.encb n d)
            ∧ n.toNat = min 8 (s.length - 8 * c)
            ∧ ∀ j : Nat, j < 8 → lane d j = if j < n.toNat then s.getD (8 * c + j) 0 else 0

/-- R72, R84: ENCODE rd, "s" leaves encode of the first MAX_LEN bytes of `s` in M[rd], from every state. -/
def Obligations.EncodePseudoInstructionEncodesTheString : Prop :=
  ∀ (rd : MReg) (bytes : List Byte) (s : State), ∃ t : State, execAll (expandLine (.encode rd bytes)) s = .next t
    ∧ readM rd t = encodeBytes s.build (bytes.take s.build.maxLen.toNat)
    ∧ t.cnt.toNat = min bytes.length s.build.maxLen.toNat
    ∧ KeepsMasksBut [rd] s t ∧ KeepsCard s t ∧ KeepsDecoded s t ∧ KeepsStatus s t ∧ KeepsOutside s t
end

