-- ==== Sys2Proof/Laws/Operands.lean ====
section
/-!
SUPPORT. The laws of the operand and value functions: the lookup bit by bit (R80), the OR folds (R83, R86), the
population count and the decoded sequence (R100, R103), byte lanes (R50).
-/

namespace Sys2Proof.Machine

/-! ### OR folds -/

/-- A bit of an OR fold is set exactly if it was set before or some element sets it. -/
theorem getLsbD_orFold {α : Type} (f : α → Mask) (l : List α) (a : Mask) (i : Nat) :
    (l.foldl (fun h x => h ||| f x) a).getLsbD i = (a.getLsbD i || l.any fun x => (f x).getLsbD i) := by
  induction l generalizing a with
  | nil => simp
  | cons x l ih => simp [ih, Bool.or_assoc]

/-- An OR fold from `a` is `a` ORed with the fold from 0. -/
theorem orFold_eq_or {α : Type} (f : α → Mask) (l : List α) (a : Mask) :
    l.foldl (fun h x => h ||| f x) a = a ||| l.foldl (fun h x => h ||| f x) 0 := by
  apply BitVec.eq_of_getLsbD_eq
  intro i _
  simp [getLsbD_orFold]

/-! ### The lookup (R80, R81) -/

/-- hit's loop is an OR fold of the entries that match. -/
theorem hit_eq_orFold (b : Build) (x : Byte) :
    hit b x = (List.finRange 64).foldl (fun h i => h ||| if b.symbolAt i = x then 1#64 <<< i.val else 0) 0 := by
  unfold hit
  congr 1
  funext h i
  split <;> simp

/-- Bit `i` of hit(x) is 1 exactly when ALPHABET[i] = x (R80). -/
theorem getLsbD_hit (b : Build) (x : Byte) (i : Fin 64) :
    (hit b x).getLsbD i.val = decide (b.symbolAt i = x) := by
  rw [hit_eq_orFold, getLsbD_orFold, Bool.eq_iff_iff]
  simp only [BitVec.ofNat_eq_ofNat, BitVec.getLsbD_zero, Bool.false_or, List.any_eq_true, List.mem_finRange, true_and,
    decide_eq_true_eq]
  constructor
  · rintro ⟨j, hj⟩
    split at hj
    case isTrue h =>
      have hij : j = i := by
        apply Fin.ext
        simp only [BitVec.getLsbD_shiftLeft, BitVec.getLsbD_one] at hj
        simp at hj
        omega
      rwa [← hij]
    case isFalse => simp at hj
  · intro h
    exact ⟨i, by simp [h]⟩

/-- The symbol at a position identifies the position (R7). -/
theorem symbolAt_inj (b : Build) (i j : Fin 64) : b.symbolAt i = b.symbolAt j ↔ i = j :=
  ⟨fun h => b.alphabet_injective i j h, fun h => by rw [h]⟩

/-- hit(ALPHABET[i]) = 1 << i (R81). -/
theorem hit_symbolAt (b : Build) (i : Fin 64) : hit b (b.symbolAt i) = 1#64 <<< i.val := by
  apply BitVec.eq_of_getLsbD_eq
  intro k hk
  rw [getLsbD_hit b _ ⟨k, hk⟩]
  rw [Bool.eq_iff_iff]
  simp only [decide_eq_true_eq, symbolAt_inj, Fin.ext_iff, BitVec.getLsbD_shiftLeft, BitVec.getLsbD_one]
  simp
  omega

/-! ### Encode (R83) -/

/-- Bit `i` of encode(s) is 1 exactly when ALPHABET[i] occurs in `s` (R83). -/
theorem getLsbD_encodeBytes (b : Build) (s : List Byte) (i : Fin 64) :
    (encodeBytes b s).getLsbD i.val = decide (b.symbolAt i ∈ s) := by
  unfold encodeBytes
  rw [getLsbD_orFold, Bool.eq_iff_iff]
  simp only [getLsbD_hit, BitVec.ofNat_eq_ofNat, BitVec.getLsbD_zero, Bool.false_or, List.any_eq_true,
    decide_eq_true_eq]
  exact ⟨fun ⟨x, hx, h⟩ => h ▸ hx, fun h => ⟨_, h, rfl⟩⟩

theorem encodeBytes_append (b : Build) (s t : List Byte) :
    encodeBytes b (s ++ t) = encodeBytes b s ||| encodeBytes b t := by
  unfold encodeBytes
  rw [List.foldl_append, orFold_eq_or]

/-- Scanning lanes is encoding their bytes (R86). -/
theorem scanLanes_eq_encodeBytes (b : Build) (n : Nat) (d : Mask) :
    scanLanes b n d = encodeBytes b ((List.range n).map (lane d)) := by
  simp [scanLanes, encodeBytes, List.foldl_map]

/-! ### Population count and decode (R100, R103) -/

/-- length(decode(A)) = popcount(A) (R103). -/
theorem length_decodeMask (b : Build) (a : Mask) : (decodeMask b a).length = popcount a := by
  simp [decodeMask, popcount, List.countP_eq_length_filter]

theorem popcount_le (a : Mask) : popcount a ≤ 64 := by
  have h := List.countP_le_length (p := fun i : Fin 64 => a.getLsbD i.val) (l := List.finRange 64)
  simpa [popcount] using h

/-- A byte is in decode(A) exactly if it is the symbol of a set bit. -/
theorem mem_decodeMask (b : Build) (a : Mask) (x : Byte) :
    x ∈ decodeMask b a ↔ ∃ i : Fin 64, a.getLsbD i.val = true ∧ b.symbolAt i = x := by
  simp [decodeMask]

/-- Byte `k` of the buffer DEC writes: the k-th decoded symbol, 0x00 past the end (R101). -/
theorem getElem_doutOf (seq : List Byte) (k : Nat) (hk : k < 64) : (doutOf seq)[k] = seq.getD k 0 := by
  simp [doutOf]

/-! ### Byte lanes (R50) -/

/-- Bit `i` of lane `j` is bit 8j + i of the word. -/
theorem getLsbD_lane (d : Mask) (j i : Nat) (hi : i < 8) : (lane d j).getLsbD i = d.getLsbD (8 * j + i) := by
  simp [lane, hi]

/-- Lane `j` of a packed word is its `j`-th byte, for j in 0..7. -/
theorem lane_packLanes (f : Nat → Byte) (j : Nat) (hj : j < 8) : lane (packLanes f) j = f j := by
  apply BitVec.eq_of_getLsbD_eq
  intro i hi
  rw [getLsbD_lane _ _ _ hi, packLanes, getLsbD_orFold, Bool.eq_iff_iff]
  simp only [BitVec.ofNat_eq_ofNat, BitVec.getLsbD_zero, Bool.false_or, List.any_eq_true, List.mem_range,
    BitVec.getLsbD_shiftLeft, BitVec.getLsbD_setWidth]
  constructor
  · rintro ⟨k, hk, h⟩
    simp only [Bool.and_eq_true, decide_eq_true_eq, Bool.not_eq_true', decide_eq_false_iff_not] at h
    have h8 := BitVec.lt_of_getLsbD h.2.2
    have hkj : k = j := by omega
    subst hkj
    have : 8 * k + i - 8 * k = i := by omega
    rw [this] at h
    exact h.2.2
  · intro h
    refine ⟨j, hj, ?_⟩
    have : 8 * j + i - 8 * j = i := by omega
    simp only [this, h]
    simp
    omega

end Sys2Proof.Machine
end

