-- ==== Sys2Proof/Laws/State.lean ====
section
/-!
SUPPORT. One lemma per field of `State` per update, so that no later proof unfolds a record update; and reading a mask
register after writing one.
-/

namespace Sys2Proof.Machine

variable (s : State)

@[simp] theorem writeM_m (r : MReg) (v : Mask) : (writeM r v s).m = setMaskFile s.m r v := rfl
@[simp] theorem writeM_acc (r : MReg) (v : Mask) : (writeM r v s).acc = s.acc := rfl
@[simp] theorem writeM_cnt (r : MReg) (v : Mask) : (writeM r v s).cnt = s.cnt := rfl
@[simp] theorem writeM_card (r : MReg) (v : Mask) : (writeM r v s).card = s.card := rfl
@[simp] theorem writeM_dlen (r : MReg) (v : Mask) : (writeM r v s).dlen = s.dlen := rfl
@[simp] theorem writeM_dout (r : MReg) (v : Mask) : (writeM r v s).dout = s.dout := rfl
@[simp] theorem writeM_status (r : MReg) (v : Mask) : (writeM r v s).status = s.status := rfl
@[simp] theorem writeM_rsp (r : MReg) (v : Mask) : (writeM r v s).rsp = s.rsp := rfl
@[simp] theorem writeM_inflight (r : MReg) (v : Mask) : (writeM r v s).inflight = s.inflight := rfl
@[simp] theorem writeM_offer (r : MReg) (v : Mask) : (writeM r v s).offer = s.offer := rfl
@[simp] theorem writeM_host (r : MReg) (v : Mask) : (writeM r v s).host = s.host := rfl
@[simp] theorem writeM_build (r : MReg) (v : Mask) : (writeM r v s).build = s.build := rfl
@[simp] theorem writeM_draws (r : MReg) (v : Mask) : (writeM r v s).draws = s.draws := rfl

@[simp] theorem setEncoder_m (a : Mask) (c : BitVec 16) : (setEncoder a c s).m = s.m := rfl
@[simp] theorem setEncoder_acc (a : Mask) (c : BitVec 16) : (setEncoder a c s).acc = a := rfl
@[simp] theorem setEncoder_cnt (a : Mask) (c : BitVec 16) : (setEncoder a c s).cnt = c := rfl
@[simp] theorem setEncoder_card (a : Mask) (c : BitVec 16) : (setEncoder a c s).card = s.card := rfl
@[simp] theorem setEncoder_dlen (a : Mask) (c : BitVec 16) : (setEncoder a c s).dlen = s.dlen := rfl
@[simp] theorem setEncoder_dout (a : Mask) (c : BitVec 16) : (setEncoder a c s).dout = s.dout := rfl
@[simp] theorem setEncoder_status (a : Mask) (c : BitVec 16) : (setEncoder a c s).status = s.status := rfl
@[simp] theorem setEncoder_rsp (a : Mask) (c : BitVec 16) : (setEncoder a c s).rsp = s.rsp := rfl
@[simp] theorem setEncoder_inflight (a : Mask) (c : BitVec 16) : (setEncoder a c s).inflight = s.inflight := rfl
@[simp] theorem setEncoder_offer (a : Mask) (c : BitVec 16) : (setEncoder a c s).offer = s.offer := rfl
@[simp] theorem setEncoder_host (a : Mask) (c : BitVec 16) : (setEncoder a c s).host = s.host := rfl
@[simp] theorem setEncoder_build (a : Mask) (c : BitVec 16) : (setEncoder a c s).build = s.build := rfl
@[simp] theorem setEncoder_draws (a : Mask) (c : BitVec 16) : (setEncoder a c s).draws = s.draws := rfl

@[simp] theorem setCard_m (c : BitVec 7) : (setCard c s).m = s.m := rfl
@[simp] theorem setCard_acc (c : BitVec 7) : (setCard c s).acc = s.acc := rfl
@[simp] theorem setCard_cnt (c : BitVec 7) : (setCard c s).cnt = s.cnt := rfl
@[simp] theorem setCard_card (c : BitVec 7) : (setCard c s).card = c := rfl
@[simp] theorem setCard_dlen (c : BitVec 7) : (setCard c s).dlen = s.dlen := rfl
@[simp] theorem setCard_dout (c : BitVec 7) : (setCard c s).dout = s.dout := rfl
@[simp] theorem setCard_status (c : BitVec 7) : (setCard c s).status = s.status := rfl
@[simp] theorem setCard_rsp (c : BitVec 7) : (setCard c s).rsp = s.rsp := rfl
@[simp] theorem setCard_inflight (c : BitVec 7) : (setCard c s).inflight = s.inflight := rfl
@[simp] theorem setCard_offer (c : BitVec 7) : (setCard c s).offer = s.offer := rfl
@[simp] theorem setCard_host (c : BitVec 7) : (setCard c s).host = s.host := rfl
@[simp] theorem setCard_build (c : BitVec 7) : (setCard c s).build = s.build := rfl
@[simp] theorem setCard_draws (c : BitVec 7) : (setCard c s).draws = s.draws := rfl

@[simp] theorem setDecoded_m (q : List Byte) : (setDecoded q s).m = s.m := rfl
@[simp] theorem setDecoded_acc (q : List Byte) : (setDecoded q s).acc = s.acc := rfl
@[simp] theorem setDecoded_cnt (q : List Byte) : (setDecoded q s).cnt = s.cnt := rfl
@[simp] theorem setDecoded_card (q : List Byte) : (setDecoded q s).card = s.card := rfl
@[simp] theorem setDecoded_dlen (q : List Byte) : (setDecoded q s).dlen = BitVec.ofNat 7 q.length := rfl
@[simp] theorem setDecoded_dout (q : List Byte) : (setDecoded q s).dout = doutOf q := rfl
@[simp] theorem setDecoded_status (q : List Byte) : (setDecoded q s).status = s.status := rfl
@[simp] theorem setDecoded_rsp (q : List Byte) : (setDecoded q s).rsp = s.rsp := rfl
@[simp] theorem setDecoded_inflight (q : List Byte) : (setDecoded q s).inflight = s.inflight := rfl
@[simp] theorem setDecoded_offer (q : List Byte) : (setDecoded q s).offer = s.offer := rfl
@[simp] theorem setDecoded_host (q : List Byte) : (setDecoded q s).host = s.host := rfl
@[simp] theorem setDecoded_build (q : List Byte) : (setDecoded q s).build = s.build := rfl
@[simp] theorem setDecoded_draws (q : List Byte) : (setDecoded q s).draws = s.draws := rfl

@[simp] theorem setStatus_m (x : Status) : (setStatus x s).m = s.m := rfl
@[simp] theorem setStatus_acc (x : Status) : (setStatus x s).acc = s.acc := rfl
@[simp] theorem setStatus_cnt (x : Status) : (setStatus x s).cnt = s.cnt := rfl
@[simp] theorem setStatus_card (x : Status) : (setStatus x s).card = s.card := rfl
@[simp] theorem setStatus_dlen (x : Status) : (setStatus x s).dlen = s.dlen := rfl
@[simp] theorem setStatus_dout (x : Status) : (setStatus x s).dout = s.dout := rfl
@[simp] theorem setStatus_status (x : Status) : (setStatus x s).status = x := rfl
@[simp] theorem setStatus_rsp (x : Status) : (setStatus x s).rsp = s.rsp := rfl
@[simp] theorem setStatus_inflight (x : Status) : (setStatus x s).inflight = s.inflight := rfl
@[simp] theorem setStatus_offer (x : Status) : (setStatus x s).offer = s.offer := rfl
@[simp] theorem setStatus_host (x : Status) : (setStatus x s).host = s.host := rfl
@[simp] theorem setStatus_build (x : Status) : (setStatus x s).build = s.build := rfl
@[simp] theorem setStatus_draws (x : Status) : (setStatus x s).draws = s.draws := rfl

@[simp] theorem setRsp_m (x : Response) : (setRsp x s).m = s.m := rfl
@[simp] theorem setRsp_acc (x : Response) : (setRsp x s).acc = s.acc := rfl
@[simp] theorem setRsp_cnt (x : Response) : (setRsp x s).cnt = s.cnt := rfl
@[simp] theorem setRsp_card (x : Response) : (setRsp x s).card = s.card := rfl
@[simp] theorem setRsp_dlen (x : Response) : (setRsp x s).dlen = s.dlen := rfl
@[simp] theorem setRsp_dout (x : Response) : (setRsp x s).dout = s.dout := rfl
@[simp] theorem setRsp_status (x : Response) : (setRsp x s).status = s.status := rfl
@[simp] theorem setRsp_rsp (x : Response) : (setRsp x s).rsp = x := rfl
@[simp] theorem setRsp_inflight (x : Response) : (setRsp x s).inflight = s.inflight := rfl
@[simp] theorem setRsp_offer (x : Response) : (setRsp x s).offer = s.offer := rfl
@[simp] theorem setRsp_host (x : Response) : (setRsp x s).host = s.host := rfl
@[simp] theorem setRsp_build (x : Response) : (setRsp x s).build = s.build := rfl
@[simp] theorem setRsp_draws (x : Response) : (setRsp x s).draws = s.draws := rfl

@[simp] theorem respond_m (v : Mask) : (respond v s).m = s.m := rfl
@[simp] theorem respond_acc (v : Mask) : (respond v s).acc = s.acc := rfl
@[simp] theorem respond_cnt (v : Mask) : (respond v s).cnt = s.cnt := rfl
@[simp] theorem respond_card (v : Mask) : (respond v s).card = s.card := rfl
@[simp] theorem respond_dlen (v : Mask) : (respond v s).dlen = s.dlen := rfl
@[simp] theorem respond_dout (v : Mask) : (respond v s).dout = s.dout := rfl
@[simp] theorem respond_status (v : Mask) : (respond v s).status = s.status := rfl
@[simp] theorem respond_rsp (v : Mask) : (respond v s).rsp = ⟨true, v, false⟩ := rfl
@[simp] theorem respond_inflight (v : Mask) : (respond v s).inflight = s.inflight := rfl
@[simp] theorem respond_offer (v : Mask) : (respond v s).offer = s.offer := rfl
@[simp] theorem respond_host (v : Mask) : (respond v s).host = s.host := rfl
@[simp] theorem respond_build (v : Mask) : (respond v s).build = s.build := rfl
@[simp] theorem respond_draws (v : Mask) : (respond v s).draws = s.draws := rfl

@[simp] theorem raiseError_m (e : ErrCode) : (raiseError e s).m = s.m := rfl
@[simp] theorem raiseError_acc (e : ErrCode) : (raiseError e s).acc = s.acc := rfl
@[simp] theorem raiseError_cnt (e : ErrCode) : (raiseError e s).cnt = s.cnt := rfl
@[simp] theorem raiseError_card (e : ErrCode) : (raiseError e s).card = s.card := rfl
@[simp] theorem raiseError_dlen (e : ErrCode) : (raiseError e s).dlen = s.dlen := rfl
@[simp] theorem raiseError_dout (e : ErrCode) : (raiseError e s).dout = s.dout := rfl
@[simp] theorem raiseError_status (e : ErrCode) : (raiseError e s).status = recordError e s.status := rfl
@[simp] theorem raiseError_rsp (e : ErrCode) : (raiseError e s).rsp = ⟨true, 0, true⟩ := rfl
@[simp] theorem raiseError_inflight (e : ErrCode) : (raiseError e s).inflight = s.inflight := rfl
@[simp] theorem raiseError_offer (e : ErrCode) : (raiseError e s).offer = s.offer := rfl
@[simp] theorem raiseError_host (e : ErrCode) : (raiseError e s).host = s.host := rfl
@[simp] theorem raiseError_build (e : ErrCode) : (raiseError e s).build = s.build := rfl
@[simp] theorem raiseError_draws (e : ErrCode) : (raiseError e s).draws = s.draws := rfl

@[simp] theorem popPorts_m : (popPorts s).m = s.m := rfl
@[simp] theorem popPorts_acc : (popPorts s).acc = s.acc := rfl
@[simp] theorem popPorts_cnt : (popPorts s).cnt = s.cnt := rfl
@[simp] theorem popPorts_card : (popPorts s).card = s.card := rfl
@[simp] theorem popPorts_dlen : (popPorts s).dlen = s.dlen := rfl
@[simp] theorem popPorts_dout : (popPorts s).dout = s.dout := rfl
@[simp] theorem popPorts_status : (popPorts s).status = s.status := rfl
@[simp] theorem popPorts_rsp : (popPorts s).rsp = s.rsp := rfl
@[simp] theorem popPorts_inflight : (popPorts s).inflight = s.inflight := rfl
@[simp] theorem popPorts_offer : (popPorts s).offer = s.offer := rfl
@[simp] theorem popPorts_host : (popPorts s).host = s.host.tail := rfl
@[simp] theorem popPorts_build : (popPorts s).build = s.build := rfl
@[simp] theorem popPorts_draws : (popPorts s).draws = s.draws := rfl

/-- Reading a mask register after writing one (R22: four registers, none hardwired). -/
@[simp] theorem readM_writeM (r q : MReg) (v : Mask) :
    readM r (writeM q v s) = if r = q then v else readM r s := by
  cases r <;> cases q <;> simp [readM, writeM, setMaskFile]

/-- `readM` and `readDout` read one field each. -/
theorem readM_congr (r : MReg) (s t : State) (h : t.m = s.m) : readM r t = readM r s := by
  cases r <;> simp [readM, h]

theorem readDout_congr (k : Nat) (s t : State) (h : t.dout = s.dout) : readDout k t = readDout k s := by
  simp [readDout, h]

@[simp] theorem readM_respond (r : MReg) (v : Mask) : readM r (respond v s) = readM r s :=
  readM_congr r s _ rfl

@[simp] theorem readM_raiseError (r : MReg) (e : ErrCode) : readM r (raiseError e s) = readM r s :=
  readM_congr r s _ rfl

@[simp] theorem readM_setEncoder (r : MReg) (a : Mask) (c : BitVec 16) : readM r (setEncoder a c s) = readM r s :=
  readM_congr r s _ rfl

@[simp] theorem readM_setCard (r : MReg) (c : BitVec 7) : readM r (setCard c s) = readM r s :=
  readM_congr r s _ rfl

@[simp] theorem readM_setDecoded (r : MReg) (q : List Byte) : readM r (setDecoded q s) = readM r s :=
  readM_congr r s _ rfl

@[simp] theorem readM_setStatus (r : MReg) (x : Status) : readM r (setStatus x s) = readM r s :=
  readM_congr r s _ rfl

@[simp] theorem readDout_respond (k : Nat) (v : Mask) : readDout k (respond v s) = readDout k s := rfl

@[simp] theorem readDout_raiseError (k : Nat) (e : ErrCode) : readDout k (raiseError e s) = readDout k s := rfl

end Sys2Proof.Machine
end

