-- ==== Sys2Proof/Laws/Ops.lean ====
section
/-!
SUPPORT. What each shared operation can do, said once: the algebra write, the encoder scan, raising an error.
-/

namespace Sys2Proof.Machine

/-- Everything the algebra write does (R120): the result stands in M[rd] and in the response, and no other field
changes. -/
theorem writeAlgebra_spec (f : Mask → Mask → Mask) (rd ra rb : MReg) (s : State) :
    writeAlgebra f rd ra rb s =
      { s with
        m := setMaskFile s.m rd (f (readM ra s) (readM rb s))
        rsp := ⟨true, f (readM ra s) (readM rb s), false⟩ } := rfl

/-- Everything the encoder scan does (R86): ACC gains the bits of the accepted lanes, CNT their number, the new ACC is
the response, and no other field changes. -/
theorem scanIntoAcc_spec (n : Nat) (d : Mask) (s : State) :
    scanIntoAcc n d s =
      { s with
        acc := s.acc ||| encodeBytes s.build ((List.range (acceptedLanes n s)).map (lane d))
        cnt := s.cnt + BitVec.ofNat 16 (acceptedLanes n s)
        rsp := ⟨true, s.acc ||| encodeBytes s.build ((List.range (acceptedLanes n s)).map (lane d)), false⟩ } := by
  rw [← scanLanes_eq_encodeBytes]
  rfl

/-- CNT after a scan, as a number: it does not wrap, since CNT + accepted lanes is at most MAX_LEN, unless CNT was
above MAX_LEN, and then it stays (R24). -/
theorem toNat_cnt_scanIntoAcc (n : Nat) (d : Mask) (s : State) :
    (scanIntoAcc n d s).cnt.toNat = s.cnt.toNat + acceptedLanes n s := by
  have h := s.build.maxLen.isLt
  have h' := s.cnt.isLt
  rw [scanIntoAcc_spec]
  simp only [BitVec.toNat_add, BitVec.toNat_ofNat, acceptedLanes]
  omega

/-- Everything raising an error does (R163): STATUS records it, the response is 0 with the error indication, and no
other field changes. -/
theorem raiseError_spec (e : ErrCode) (s : State) :
    raiseError e s = { s with status := recordError e s.status, rsp := ⟨true, 0, true⟩ } := rfl

end Sys2Proof.Machine
end

