-- ==== Sys2Proof/Laws/Exec.lean ====
section
/-!
SUPPORT. What the execution of any command can do: it answers a next state, leaves a response, and touches none of the
fields that are not registers of R20.
-/

namespace Sys2Proof.Machine

/-- The three ways the immediate of ENCB, RDDEC and RDSR meets its range (R64). -/
theorem exec_encb (n : BitVec 5) (d : Mask) (s : State) :
    exec (.encb n d) s = .next (if 8#5 < n then raiseError .range s else scanIntoAcc n.toNat d s) := by
  by_cases h : 8#5 < n <;> simp [exec, execEncb, h]

theorem exec_rddec (k : BitVec 5) (s : State) :
    exec (.rddec k) s =
      .next (if 7#5 < k then raiseError .range s
        else respond (packLanes fun j => readDout (8 * k.toNat + j) s) s) := by
  by_cases h : 7#5 < k <;> simp [exec, execRddec, h]

theorem exec_rdsr (n : BitVec 5) (s : State) :
    exec (.rdsr n) s =
      .next (match specialReg? n with
        | some r => respond (readSpecial r s) s
        | none => raiseError .range s) := by
  cases h : specialReg? n <;> simp only [exec, execRdsr, h]

/-- Every command answers a next state, with a response pending and everything outside R20's registers unchanged. -/
theorem exec_answers (i : Instr) (s : State) :
    ∃ t, exec i s = .next t ∧ t.rsp.pending = true ∧ KeepsOutside s t := by
  cases i with
  | encb n d =>
    refine ⟨_, exec_encb n d s, ?_⟩
    split <;> exact ⟨rfl, rfl, rfl, rfl, rfl, rfl⟩
  | rddec k =>
    refine ⟨_, exec_rddec k s, ?_⟩
    split <;> exact ⟨rfl, rfl, rfl, rfl, rfl, rfl⟩
  | rdsr n =>
    refine ⟨_, exec_rdsr n s, ?_⟩
    split <;> exact ⟨rfl, rfl, rfl, rfl, rfl, rfl⟩
  | _ => exact ⟨_, rfl, rfl, rfl, rfl, rfl, rfl, rfl⟩

/-- The numbers of the special registers are 0 to 5 (R29). -/
theorem specialReg?_eq_none (n : BitVec 5) : specialReg? n = none ↔ 5#5 < n := by
  revert n
  decide

end Sys2Proof.Machine
end

