-- ==== Sys2Proof/Laws/Clock.lean ====
section
/-!
SUPPORT. What one rising edge can do, said once as an inversion of `edge` and of `step`.
-/

namespace Sys2Proof.Machine

/-- Every command word leads to a next state at the command level, and nothing outside R20's registers moves (R46). -/
theorem runCommand_answers (c : Command) (s : State) :
    ∃ t, runCommand c s = .next t ∧ t.rsp.pending = true ∧ KeepsOutside s t := by
  unfold runCommand
  cases decode c.op c.data with
  | ok i => exact exec_answers i s
  | error e => exact ⟨raiseError e s, rfl, rfl, rfl, rfl, rfl, rfl, rfl⟩

/-- The latency depends on the registers, the build and the acceptance's number only, so on nothing the host drives. -/
theorem extraCyclesOf_congr (c : Command) (s t : State) (hr : registersOf t = registersOf s)
    (hb : t.build = s.build) (hd : t.draws = s.draws) : extraCyclesOf c t = extraCyclesOf c s := by
  rw [extraCyclesOf, hr, hb, hd, extraCyclesOf]

/-- A host that presents nothing offers nothing, whatever it did before (R52, log entry 6). -/
theorem offerAfter_withdrawn (p : PortIn) (o : Offer) (h : p.cmdValid = false) : offerAfter p o = .idle := by
  simp [offerAfter, h]

/-- An offer held unchanged stays held (R52). -/
theorem offerAfter_held (p : PortIn) (o : Offer) (h : p.cmdValid = true) (ho : o = .idle ∨ o = .held (presented p)) :
    offerAfter p o = .held (presented p) := by
  rcases ho with rfl | rfl <;> simp [offerAfter, h]

/-- While the offer is held unchanged, the command accepted is the one sampled (R41, R52). -/
theorem acceptedCommand_held (p : PortIn) (s : State) (h : p.cmdValid = true)
    (ho : s.offer = .idle ∨ s.offer = .held (presented p)) : acceptedCommand p s = presented p := by
  rw [acceptedCommand, offerAfter_held p s.offer h ho]

/-- What an edge does, guards included: reset, the end of an execution, a cycle of one, a cycle with a response
presented, or a cycle in which the FBCU is ready. -/
theorem edge_cases (p : PortIn) (s : State) {P : Host.Outcome State Fault Refusal → Prop}
    (hReset : p.rst = true → P (.next (resetEdge p s)))
    (hComplete : ∀ cmd, p.rst = false → s.inflight = some ⟨cmd, 0⟩ → P (completeEdge p cmd s))
    (hWait : ∀ cmd n, p.rst = false → s.inflight = some ⟨cmd, n + 1⟩ → P (.next (waitEdge p cmd n s)))
    (hResponse : p.rst = false → s.inflight = none → s.rsp.pending = true → P (.next (responseEdge p s)))
    (hReady : p.rst = false → s.inflight = none → s.rsp.pending = false → P (.next (readyEdge p s))) :
    P (edge p s) := by
  unfold edge
  cases hr : p.rst with
  | true => simpa using hReset hr
  | false =>
    cases hf : s.inflight with
    | some f =>
      obtain ⟨cmd, wait⟩ := f
      cases wait with
      | zero => simpa using hComplete cmd hr hf
      | succ n => simpa using hWait cmd n hr hf
    | none =>
      cases hp : s.rsp.pending with
      | true => simpa [hp] using hResponse hr hf hp
      | false => simpa [hp] using hReady hr hf hp

end Sys2Proof.Machine
end

