-- ==== Sys2Proof/Laws/PerInstr.lean ====
section
/-!
SUPPORT. A family of facts with one lemma per command: the word of a command meets its row of the opcode table.
-/

namespace Sys2Proof.Laws.MatchesRow

/-- The match and the mask of a command's row in the opcode table (R62). -/
def row (i : Instr) : CmdWord × CmdWord :=
  match i with
  | .nop => (0x0000, 0xFFFF)
  | .encclr => (0x0800, 0xFFFF)
  | .encb _ _ => (0x1000, 0xFFE0)
  | .encst _ => (0x1800, 0xF9FF)
  | .ldm _ _ => (0x2000, 0xF9FF)
  | .rdm _ => (0x2800, 0xFE7F)
  | .and _ _ _ => (0x3000, 0xF81F)
  | .or _ _ _ => (0x3800, 0xF81F)
  | .xor _ _ _ => (0x4000, 0xF81F)
  | .not _ _ => (0x4800, 0xF87F)
  | .andn _ _ _ => (0x5000, 0xF81F)
  | .card _ => (0x5800, 0xFE7F)
  | .dec _ => (0x6000, 0xFE7F)
  | .rddec _ => (0x6800, 0xFFE0)
  | .rdsr _ => (0x7000, 0xFFE0)
  | .clrstat => (0x7800, 0xFFFF)
  | .reserved _ => (0x8000, 0x8000)

/-- The command's word, masked, is its row's match. -/
def Statement (i : Instr) : Prop := encodeWord i &&& (row i).2 = (row i).1

theorem nop : Statement (.nop) := rfl

theorem encclr : Statement (.encclr) := rfl

theorem encb (n : BitVec 5) (data : Mask) : Statement (.encb n data) := by
  revert n
  simp only [Statement, row, encodeWord]
  decide

theorem encst (rd : MReg) : Statement (.encst rd) := by
  cases rd <;> rfl

theorem ldm (rd : MReg) (data : Mask) : Statement (.ldm rd data) := by
  cases rd <;> simp only [Statement, row, encodeWord] <;> rfl

theorem rdm (ra : MReg) : Statement (.rdm ra) := by
  cases ra <;> rfl

theorem and (rd : MReg) (ra : MReg) (rb : MReg) : Statement (.and rd ra rb) := by
  cases rd <;> cases ra <;> cases rb <;> rfl

theorem or (rd : MReg) (ra : MReg) (rb : MReg) : Statement (.or rd ra rb) := by
  cases rd <;> cases ra <;> cases rb <;> rfl

theorem xor (rd : MReg) (ra : MReg) (rb : MReg) : Statement (.xor rd ra rb) := by
  cases rd <;> cases ra <;> cases rb <;> rfl

theorem not (rd : MReg) (ra : MReg) : Statement (.not rd ra) := by
  cases rd <;> cases ra <;> rfl

theorem andn (rd : MReg) (ra : MReg) (rb : MReg) : Statement (.andn rd ra rb) := by
  cases rd <;> cases ra <;> cases rb <;> rfl

theorem card (ra : MReg) : Statement (.card ra) := by
  cases ra <;> rfl

theorem dec (ra : MReg) : Statement (.dec ra) := by
  cases ra <;> rfl

theorem rddec (k : BitVec 5) : Statement (.rddec k) := by
  revert k
  simp only [Statement, row, encodeWord]
  decide

theorem rdsr (s : BitVec 5) : Statement (.rdsr s) := by
  revert s
  simp only [Statement, row, encodeWord]
  decide

theorem clrstat : Statement (.clrstat) := rfl

theorem reserved (bits : BitVec 15) : Statement (.reserved bits) := by
  apply BitVec.eq_of_getLsbD_eq
  intro j hj
  simp only [row, encodeWord]
  interval_cases j <;> simp

end Sys2Proof.Laws.MatchesRow
end

