-- ==== Sys2Proof/Laws/Runs.lean ====
section
/-!
SUPPORT. Sequences: a run of edges or of instructions is the run of its first part and then of the rest, and so are the
responses taken in it.
-/

namespace Sys2Proof.Machine

theorem runEdges_add (m n : Nat) (s t : State) (h : runEdges m s = .next t) :
    runEdges (m + n) s = runEdges n t := by
  induction m generalizing s with
  | zero =>
    cases h
    rw [Nat.zero_add]
  | succ m ih =>
    rw [show m + 1 + n = (m + n) + 1 by omega]
    simp only [runEdges] at h ⊢
    cases hs : step s with
    | next u =>
      rw [hs] at h
      exact ih u h
    | fault r =>
      rw [hs] at h
      cases h
    | refused r =>
      rw [hs] at h
      cases h

@[simp] theorem takenResponses_zero (s : State) : takenResponses 0 s = [] := rfl

/-- The responses taken from an edge on: the one taken at the edge, and those taken from the next state on. -/
theorem takenResponses_succ (n : Nat) (s t : State) (h : step s = .next t) :
    takenResponses (n + 1) s = takenAt s ++ takenResponses n t := by
  simp [takenResponses, h]

/-- No response is taken at an edge at which none is pending. -/
theorem takenAt_of_not_pending (s : State) (h : s.rsp.pending = false) : takenAt s = [] := by
  simp [takenAt, outputs, rspValid, h]

theorem takenResponses_add (m n : Nat) (s t : State) (h : runEdges m s = .next t) :
    takenResponses (m + n) s = takenResponses m s ++ takenResponses n t := by
  induction m generalizing s with
  | zero =>
    cases h
    rw [Nat.zero_add, takenResponses_zero, List.nil_append]
  | succ m ih =>
    rw [show m + 1 + n = (m + n) + 1 by omega]
    simp only [runEdges] at h
    cases hs : step s with
    | next u =>
      rw [hs] at h
      rw [takenResponses_succ _ _ _ hs, takenResponses_succ _ _ _ hs, ih u h, List.append_assoc]
    | fault r =>
      rw [hs] at h
      cases h
    | refused r =>
      rw [hs] at h
      cases h

@[simp] theorem responsesOf_nil (s : State) : responsesOf [] s = [] := rfl

/-- The responses of a sequence of commands: the first command's, and those of the rest from where it leads. -/
theorem responsesOf_cons (c : Command) (cs : List Command) (s t : State) (h : runCommand c s = .next t) :
    responsesOf (c :: cs) s = (t.rsp.data, t.rsp.err) :: responsesOf cs t := by
  simp [responsesOf, h]

theorem execAll_append (xs ys : List Instr) (s t : State) (h : execAll xs s = .next t) :
    execAll (xs ++ ys) s = execAll ys t := by
  induction xs generalizing s with
  | nil =>
    cases h
    rfl
  | cons x xs ih =>
    simp only [execAll, List.cons_append] at h ⊢
    cases he : exec x s with
    | next u =>
      rw [he] at h
      exact ih u h
    | fault r =>
      rw [he] at h
      cases h
    | refused r =>
      rw [he] at h
      cases h

end Sys2Proof.Machine
end

