-- ==== Sys2Proof/Tests/Slice0.lean ====
section
/-!
SUPPORT. Tests: the spec's own vectors (95_test_vectors.md) and worked examples, one step each; decoding of words written
out from 30_encoding.md; terms the well-formedness check refuses; and, for every statement with hypotheses, a witness
that meets them.
-/

namespace Sys2Proof.Tests

open Sys2Proof.Machine

/-! ### States of the tests -/

/-- Reset with TEST_ALPHABET and MAX_LEN = 256, as the vectors start. -/
def demo : State := State.resetOf (Config.testBuild 256#16 (by decide)) .idle [] 0

/-- Reset with TEST_ALPHABET and MAX_LEN = 3, as vector T5 and program P4 start. -/
def demo3 : State := State.resetOf (Config.testBuild 3#16 (by decide)) .idle [] 0

/-- `demo` with M[0] = `a` and M[1] = `b`. -/
def withMasks (a b : Mask) : State := writeM .m0 a (writeM .m1 b demo)

/-- The masks of the set-algebra vectors. -/
def algebraDemo : State := withMasks 0x00FF00FF00FF00FF 0x0F0F0F0F0F0F0F0F

/-- `demo` with an encoder state. -/
def withEncoder (acc : Mask) (cnt : BitVec 16) : State := setEncoder acc cnt demo

/-- `demo` with the host driving `ps` at the coming edges. -/
def withHost (ps : List PortIn) : State := { demo with host := ps }

/-- A value of the next state, if there is one. -/
def after {α : Type} (f : State → α) (o : Host.Outcome State Fault Refusal) : Option α :=
  match o with
  | .next t => some (f t)
  | .fault _ => none
  | .refused _ => none

/-- The response of the next state: data and error indication. -/
def rspOf (o : Host.Outcome State Fault Refusal) : Option (Mask × Bool) :=
  after (fun t => (t.rsp.data, t.rsp.err)) o

/-- The ports of a host that asserts reset. -/
def resetPorts : PortIn := { rst := true, cmdValid := false, cmdOp := 0, cmdData := 0, rspReady := false }

/-! ### Well-formedness: the check refuses an ill-formed term for each of its ranges (R64) -/

theorem test_wellFormed_refuses_encb_9 : ¬ Instr.WellFormed (.encb 9 0) := by decide
theorem test_wellFormed_refuses_rddec_8 : ¬ Instr.WellFormed (.rddec 8) := by decide
theorem test_wellFormed_refuses_rdsr_6 : ¬ Instr.WellFormed (.rdsr 6) := by decide
theorem test_wellFormed_at_the_limits :
    Instr.WellFormed (.encb 8 0) ∧ Instr.WellFormed (.rddec 7) ∧ Instr.WellFormed (.rdsr 5) := by decide

/-! ### Decoding: each command's word written out from R60 and R62, fields from the top -/

theorem test_decode_nop : decode (0b00000_00_00_00_00000) 0 = .ok .nop := rfl
theorem test_decode_encclr : decode (0b00001_00_00_00_00000) 0 = .ok .encclr := rfl
theorem test_decode_encb : decode (0b00010_00_00_00_00101) 0x41 = .ok (.encb 5 0x41) := rfl
theorem test_decode_encst : decode (0b00011_10_00_00_00000) 0 = .ok (.encst .m2) := rfl
theorem test_decode_ldm : decode (0b00100_01_00_00_00000) 0x99 = .ok (.ldm .m1 0x99) := rfl
theorem test_decode_rdm : decode (0b00101_00_10_00_00000) 0 = .ok (.rdm .m2) := rfl
theorem test_decode_and : decode (0b00110_01_10_11_00000) 0 = .ok (.and .m1 .m2 .m3) := rfl
theorem test_decode_or : decode (0b00111_01_10_11_00000) 0 = .ok (.or .m1 .m2 .m3) := rfl
theorem test_decode_xor : decode (0b01000_01_10_11_00000) 0 = .ok (.xor .m1 .m2 .m3) := rfl
theorem test_decode_not : decode (0b01001_01_10_00_00000) 0 = .ok (.not .m1 .m2) := rfl
theorem test_decode_andn : decode (0b01010_01_10_11_00000) 0 = .ok (.andn .m1 .m2 .m3) := rfl
theorem test_decode_card : decode (0b01011_00_01_00_00000) 0 = .ok (.card .m1) := rfl
theorem test_decode_dec : decode (0b01100_00_01_00_00000) 0 = .ok (.dec .m1) := rfl
theorem test_decode_rddec : decode (0b01101_00_00_00_00110) 0 = .ok (.rddec 6) := rfl
theorem test_decode_rdsr : decode (0b01110_00_00_00_00010) 0 = .ok (.rdsr 2) := rfl
theorem test_decode_clrstat : decode (0b01111_00_00_00_00000) 0 = .ok .clrstat := rfl
theorem test_decode_reserved : decode (0b11111_00_00_00_00000) 0 = .ok (.reserved 0x7800) := rfl

/-- R68's worked word: AND m2, m0, m1 is 0x3420. -/
theorem test_encode_and : encodeWord (.and .m2 .m0 .m1) = 0x3420 := by decide

/-- Vectors X1 to X11: the error of each word. -/
theorem test_errors_of_words :
    errorOf 0x8000 0 = some .illop ∧ errorOf 0xF800 0 = some .illop ∧ errorOf 0xFFFF 0 = some .illop
      ∧ errorOf 0x0001 0 = some .rsvd ∧ errorOf 0x1009 0x4141 = some .range ∧ errorOf 0x1029 0 = some .rsvd
      ∧ errorOf 0x7006 0 = some .range ∧ errorOf 0x6808 0 = some .range ∧ errorOf 0x3421 0 = some .rsvd
      ∧ errorOf 0x48A0 0 = some .rsvd ∧ errorOf 0x1FFF 0 = some .rsvd := by decide

/-- The table word of ENCB 3 reads as ENCB with a data operand of zeros. -/
theorem test_decodeTableWord : decodeTableWord 16 0x1003 = some (.encb 3 0) := rfl

/-! ### The encoder (vectors ENC1 to ENC13) -/

theorem test_hit_of_A : hit demo.build 0x41 = 0x4 ∧ hit demo.build 0x20 = 0 := by decide +kernel

/-- ENC3. -/
theorem test_encb_mixed :
    after (fun t => (t.acc, t.cnt, t.rsp.data)) (exec (.encb 4 0x0000000021623141) demo)
      = some (0x0000000800000004, 4, 0x0000000800000004) := by decide +kernel

/-- ENC9: MAX_LEN drops the last two lanes. -/
theorem test_encb_truncates :
    after (fun t => (t.acc, t.cnt, t.rsp.data, t.status)) (exec (.encb 4 0x000000004241403F) (withEncoder 0 254))
      = some (0x3, 256, 0x3, ⟨false, 0⟩) := by decide +kernel

/-- R85's example. -/
theorem test_encclr : after (fun t => (t.acc, t.cnt)) (exec .encclr (withEncoder 0x3 2)) = some (0, 0) := by decide

/-- ENC12. -/
theorem test_encst :
    after (fun t => (t.m.m2, t.acc, t.rsp.data)) (exec (.encst .m2) (withEncoder 0x0000000800000004 4))
      = some (0x0000000800000004, 0x0000000800000004, 0x0000000800000004) := by decide

/-! ### The decoder (vectors D1 to D9) -/

/-- D4: the DEC. -/
theorem test_dec :
    after (fun t => (t.dlen, t.rsp.data, [0, 1, 2, 3].map fun k => readDout k t))
      (exec (.dec .m0) (withMasks 0x8000000000000005 0)) = some (3, 3, [0x7E, 0x41, 0x3F, 0x00]) := by decide +kernel

/-- D4: the RDDEC. -/
theorem test_rddec :
    rspOf (exec (.rddec 0) (setDecoded [0x7E, 0x41, 0x3F] demo)) = some (0x00000000003F417E, false) := by
  decide +kernel

/-- D5: the whole alphabet, the last chunk. -/
theorem test_rddec_last_chunk :
    rspOf (exec (.rddec 7) (setDecoded (decodeMask demo.build 0xFFFFFFFFFFFFFFFF) demo))
      = some (0x3F40414243444546, false) := by decide +kernel

/-! ### The set-algebra unit (vectors S1 to S19) -/

theorem test_and : after (fun t => t.m.m2) (exec (.and .m2 .m0 .m1) algebraDemo) = some 0x000F000F000F000F := by decide
theorem test_or : after (fun t => t.m.m3) (exec (.or .m3 .m0 .m1) algebraDemo) = some 0x0FFF0FFF0FFF0FFF := by decide
theorem test_xor : after (fun t => t.m.m2) (exec (.xor .m2 .m0 .m1) algebraDemo) = some 0x0FF00FF00FF00FF0 := by decide
theorem test_not : after (fun t => t.m.m2) (exec (.not .m2 .m0) algebraDemo) = some 0xFF00FF00FF00FF00 := by decide
theorem test_andn : after (fun t => t.m.m2) (exec (.andn .m2 .m0 .m1) algebraDemo) = some 0x00F000F000F000F0 := by decide

/-- S15: in place. -/
theorem test_not_in_place :
    after (fun t => t.m.m1) (exec (.not .m1 .m1) (withMasks 0 0xFFFFFFFFFFFFFFFF)) = some 0 := by decide

/-- S7: the sources swapped. -/
theorem test_andn_swapped :
    after (fun t => t.m.m3) (exec (.andn .m3 .m1 .m0) algebraDemo) = some 0x0F000F000F000F00 := by decide

/-- S12: one register as every operand. -/
theorem test_xor_clears : after (fun t => t.m.m0) (exec (.xor .m0 .m0 .m0) algebraDemo) = some 0 := by decide

/-- S14: 64 members fit into CARD. -/
theorem test_card_of_all :
    after (fun t => (t.card, t.rsp.data)) (exec (.card .m1) (withMasks 0 0xFFFFFFFFFFFFFFFF)) = some (64, 64) := by
  decide +kernel

/-- S16: bits 63 and 0 are both counted. -/
theorem test_card_ends : rspOf (exec (.card .m0) (withMasks 0x8000000000000001 0)) = some (2, false) := by
  decide +kernel

/-! ### Data transfer and control (vectors T1 to T8) -/

theorem test_nop : rspOf (exec .nop demo) = some (0, false) := by decide

/-- T2. -/
theorem test_ldm :
    after (fun t => (t.m.m3, t.rsp.data, t.acc, t.cnt)) (exec (.ldm .m3 0x0123456789ABCDEF) demo)
      = some (0x0123456789ABCDEF, 0x0123456789ABCDEF, 0, 0) := by decide

/-- T2. -/
theorem test_rdm :
    rspOf (exec (.rdm .m3) (writeM .m3 0x0123456789ABCDEF demo)) = some (0x0123456789ABCDEF, false) := by decide

/-- T4 and T5. -/
theorem test_rdsr_param :
    rspOf (exec (.rdsr 5) demo) = some (0x0000000801000440, false)
      ∧ rspOf (exec (.rdsr 5) demo3) = some (0x0000000800030440, false) := by decide

/-- STATUS = 0x7 reads as ERR with ECODE = RANGE. -/
theorem test_rdsr_status : rspOf (exec (.rdsr 0) (setStatus ⟨true, 3⟩ demo)) = some (0x7, false) := by decide

/-- T8. -/
theorem test_clrstat :
    after (fun t => (t.status, t.rsp.data)) (exec .clrstat (setStatus ⟨true, 1⟩ demo)) = some (⟨false, 0⟩, 0) := by
  decide

/-! ### Errors (vectors X1 to X14) -/

/-- X1: the reserved opcode. -/
theorem test_reserved :
    after (fun t => (t.status, t.rsp)) (exec (.reserved 0) demo) = some (⟨true, 1⟩, ⟨true, 0, true⟩) := by decide

/-- X12: the first code stays. -/
theorem test_first_error_stays :
    after (fun t => statusWord t.status) (runCommand ⟨0x0001, 0⟩ (setStatus ⟨true, 1⟩ demo)) = some 0x3 := by decide

/-- X5: a malformed ENCB moves neither ACC nor CNT. -/
theorem test_erroneous_encb :
    after (fun t => (statusWord t.status, t.acc, t.cnt, t.rsp.err)) (runCommand ⟨0x1009, 0x4141⟩ demo)
      = some (0x7, 0, 0, true) := by decide

/-- X13: an error does not block a later command. -/
theorem test_error_does_not_block :
    after (fun t => (t.acc, statusWord t.status)) (runCommand ⟨0x1002, 0x4241⟩ (setStatus ⟨true, 1⟩ demo))
      = some (0xC, 0x3) := by decide +kernel

/-- X14: an erroneous CLRSTAT does not clear. -/
theorem test_erroneous_clrstat :
    after (fun t => statusWord t.status) (runCommand ⟨0x7801, 0⟩ (setStatus ⟨true, 3⟩ demo)) = some 0x7 := by decide

/-! ### Clock edges -/

/-- The command placed runs at the very next step: OR m2, m0, m1 with R68's numbering of the word. -/
theorem test_step_runs_the_placed_command :
    after (fun t => (t.m.m2, t.inflight, t.rsp.pending)) (step (algebraDemo.withFetchWord 16 0x3C20))
      = some (0x0FFF0FFF0FFF0FFF, none, true) := by decide

/-- R41: a command is accepted, and R46: nothing of it shows yet. -/
theorem test_step_accepts :
    after (fun t => (t.inflight.map fun f => f.cmd, t.m.m1, t.rsp.pending))
      (step (withHost [offerPorts ⟨0x2200, 0x0F0F⟩])) = some (some ⟨0x2200, 0x0F0F⟩, 0, false) := rfl

/-- R43: the host takes the response. -/
theorem test_step_takes_the_response :
    after (fun t => (t.rsp.pending, t.rsp.data)) (step (respond 0x5 (withHost [takePorts]))) = some (false, 0x5) := by
  decide

/-- R42: no command is accepted while a response is pending. -/
theorem test_step_accepts_nothing_while_pending :
    after (fun t => (t.inflight, t.rsp.pending)) (step (respond 0x5 (withHost [offerPorts ⟨0x2200, 0x0F0F⟩])))
      = some (none, true) := by decide

/-- R180, R181: reset abandons the command in flight. -/
theorem test_step_resets :
    after (fun t => (t.m.m0, t.inflight, t.rsp.pending))
      (step { algebraDemo with inflight := some ⟨⟨0x3420, 0⟩, 0⟩, host := [resetPorts] }) = some (0, none, false) := by
  decide

/-! ### The assembler (R71, R72) -/

/-- `ENCB 2, 0x4241 ; AB` is the command P2 sends at its step 12. -/
theorem test_assemble_encb :
    assemble? [['E', 'N', 'C', 'B', ' ', '2', ',', ' ', '0', 'x', '4', '2', '4', '1', ' ', ';', ' ', 'A', 'B']]
      = some [⟨0x1002, 0x4241⟩] := by decide +kernel

/-- `RDSR PARAM` is RDSR 5, and `MOV m1, m0` is OR m1, m0, m0. -/
theorem test_assemble_names :
    assemble? [['R', 'D', 'S', 'R', ' ', 'P', 'A', 'R', 'A', 'M'], ['M', 'O', 'V', ' ', 'm', '1', ',', 'm', '0']]
      = some [⟨0x7005, 0⟩, ⟨0x3A00, 0⟩] := by decide +kernel

/-- ENCODE of "?bB" (vector E11): ENCCLR, one ENCB of three bytes, ENCST. -/
theorem test_assemble_encode :
    assemble? [['E', 'N', 'C', 'O', 'D', 'E', ' ', 'm', '1', ',', ' ', quoteMark, '?', 'b', 'B', quoteMark]]
      = some [⟨0x0800, 0⟩, ⟨0x1003, 0x42623F⟩, ⟨0x1A00, 0⟩] := by decide +kernel

/-- RDDEC 8 is no line: its chunk index is out of range. -/
theorem test_assemble_refuses_range : assemble? [['R', 'D', 'D', 'E', 'C', ' ', '8']] = none := by decide +kernel

/-! ### Witnesses: concrete operands and states that meet each statement's hypotheses, clause by clause -/

theorem witness_DecodeOfEncodeIsTheInstruction : Instr.WellFormed (.encb 8 0x41) ∧ Instr.WellFormed (.rdsr 0) := by
  decide

theorem witness_DecodedWordIsItsEncoding : decode 0x1008 0x41 = .ok (.encb 8 0x41) := rfl

theorem witness_OpcodeRowsDoNotOverlap :
    (∃ r ∈ opcodeMap, 0x1008 &&& r.mask = r.pattern) ∧ (0x8000#16).getLsbD 15 = true := by decide

theorem witness_ErrorOfAWordIsTheFirstThatApplies :
    errorOf 0x1008 0x41 = none ∧ ∃ t, runCommand ⟨0x1008, 0x41⟩ demo = .next t := ⟨rfl, _, rfl⟩

theorem witness_UnusedDataOperandHasNoEffect : opcOf 0x3420 ≠ 2 ∧ opcOf 0x3420 ≠ 4 := by decide

/-- The lowest and the highest must-be-zero bit of every opcode, for the clauses RejectsNonzero. -/
theorem witness_RejectsNonzero :
    (opcOf 0x0801 = 1 ∧ (0x0801#16).extractLsb' 0 11 ≠ 0) ∧ (opcOf 0x0C00 = 1 ∧ (0x0C00#16).extractLsb' 0 11 ≠ 0)
      ∧ (opcOf 0x1020 = 2 ∧ (0x1020#16).extractLsb' 5 6 ≠ 0) ∧ (opcOf 0x1400 = 2 ∧ (0x1400#16).extractLsb' 5 6 ≠ 0)
      ∧ (opcOf 0x1801 = 3 ∧ (0x1801#16).extractLsb' 0 9 ≠ 0) ∧ (opcOf 0x1900 = 3 ∧ (0x1900#16).extractLsb' 0 9 ≠ 0)
      ∧ (opcOf 0x2001 = 4 ∧ (0x2001#16).extractLsb' 0 9 ≠ 0) ∧ (opcOf 0x2A00 = 5 ∧ (0x2A00#16).extractLsb' 9 2 ≠ 0)
      ∧ (opcOf 0x2840 = 5 ∧ (0x2840#16).extractLsb' 0 7 ≠ 0) ∧ (opcOf 0x3010 = 6 ∧ (0x3010#16).extractLsb' 0 5 ≠ 0)
      ∧ (opcOf 0x3801 = 7 ∧ (0x3801#16).extractLsb' 0 5 ≠ 0) ∧ (opcOf 0x4001 = 8 ∧ (0x4001#16).extractLsb' 0 5 ≠ 0)
      ∧ (opcOf 0x4840 = 9 ∧ (0x4840#16).extractLsb' 0 7 ≠ 0) ∧ (opcOf 0x5001 = 10 ∧ (0x5001#16).extractLsb' 0 5 ≠ 0)
      ∧ (opcOf 0x5A00 = 11 ∧ (0x5A00#16).extractLsb' 9 2 ≠ 0) ∧ (opcOf 0x5801 = 11 ∧ (0x5801#16).extractLsb' 0 7 ≠ 0)
      ∧ (opcOf 0x6400 = 12 ∧ (0x6400#16).extractLsb' 9 2 ≠ 0) ∧ (opcOf 0x6001 = 12 ∧ (0x6001#16).extractLsb' 0 7 ≠ 0)
      ∧ (opcOf 0x6820 = 13 ∧ (0x6820#16).extractLsb' 5 6 ≠ 0) ∧ (opcOf 0x7020 = 14 ∧ (0x7020#16).extractLsb' 5 6 ≠ 0)
      ∧ (opcOf 0x7801 = 15 ∧ (0x7801#16).extractLsb' 0 11 ≠ 0) ∧ (opcOf 0x0001 = 0 ∧ (0x0001#16).extractLsb' 0 11 ≠ 0) := by
  decide

/-- The first immediate above each limit, for the clauses RejectsAbove. -/
theorem witness_RejectsAbove :
    (opcOf 0x1009 = 2 ∧ (0x1009#16).extractLsb' 5 6 = 0 ∧ 8 < (immOf 0x1009).toNat)
      ∧ (opcOf 0x6808 = 13 ∧ (0x6808#16).extractLsb' 5 6 = 0 ∧ 7 < (immOf 0x6808).toNat)
      ∧ (opcOf 0x7006 = 14 ∧ (0x7006#16).extractLsb' 5 6 = 0 ∧ 5 < (immOf 0x7006).toNat) := by decide

theorem witness_EncbScansTheCountedLanes : (8#5 : BitVec 5) ≤ 8 ∧ (0#5 : BitVec 5) ≤ 8 := by decide

theorem witness_EncodeFoldsIntoASet : ∀ x : Byte, x ∈ [0x41, 0x42, 0x41] ↔ x ∈ ([0x42, 0x41] : List Byte) := by
  intro x
  simp
  tauto

theorem witness_SessionEncodesTheFirstMaxLenBytes :
    (∀ c ∈ [((8 : BitVec 5), (0x4142 : Mask)), (0, 0)], c.1 ≤ 8) ∧ demo.acc = 0 ∧ demo.cnt = 0 :=
  ⟨by simp, rfl, rfl⟩

theorem witness_DecodeListsTheMembersDescending :
    (0x8000000000000001#64).getLsbD 63 = true ∧ (0x8000000000000001#64).getLsbD 0 = true
      ∧ (decodeMask demo.build 0x8000000000000001)[1]? = some 0x3F := by decide +kernel

theorem witness_RddecReadsEightBytes : (7#5 : BitVec 5) ≤ 7 ∧ (0#5 : BitVec 5) ≤ 7 := by decide

theorem witness_DecodedSequenceIsASnapshot :
    (∃ t u : State, exec (.dec .m0) algebraDemo = .next t ∧ (∀ i ∈ [Instr.ldm .m0 0], ∀ q : MReg, i ≠ .dec q)
        ∧ execAll [.ldm .m0 0] t = .next u)
      ∧ ∃ t t' : State, exec (.dec .m0) algebraDemo = .next t ∧ exec (.dec .m0) (respond 1 algebraDemo) = .next t'
        ∧ readM .m0 algebraDemo = readM .m0 (respond 1 algebraDemo)
        ∧ algebraDemo.build = (respond 1 algebraDemo).build :=
  ⟨⟨_, _, rfl, by simp, rfl⟩, _, _, rfl, rfl, rfl, rfl⟩

theorem witness_EncodeAndDecodeRoundTrip :
    ([0x3F, 0x62, 0x42] : List Byte).Nodup
      ∧ (∀ x ∈ ([0x3F, 0x62, 0x42] : List Byte), ∃ i : Fin 64, demo.build.symbolAt i = x)
      ∧ ([0x3F, 0x62, 0x42] : List Byte).length ≤ demo.build.maxLen.toNat := by decide +kernel

theorem witness_SetAlgebraLaws :
    (∃ t u : State, exec (.not .m0 .m0) algebraDemo = .next t ∧ exec (.not .m1 .m0) t = .next u)
      ∧ (∃ t : State, exec (.andn .m0 .m0 .m0) algebraDemo = .next t)
      ∧ ∃ t : State, exec (.xor .m0 .m1 .m1) algebraDemo = .next t :=
  ⟨⟨_, _, rfl, rfl⟩, ⟨_, rfl⟩, _, rfl⟩

theorem witness_RdsrReadsTheSpecialRegisters : (5#5 : BitVec 5) ≤ 5 ∧ (0#5 : BitVec 5) ≤ 5 := by decide

theorem witness_ClrstatClearsStatus :
    opcOf 0x7801 = 15 ∧ (0x7801 : CmdWord) ≠ 0x7800 ∧ ∃ t : State, runCommand ⟨0x7801, 0⟩ demo = .next t :=
  ⟨by decide, by decide, _, rfl⟩

theorem witness_ReservedOpcodesRaiseIllop : (0x8000#16).getLsbD 15 = true ∧ (0xFFFF#16).getLsbD 15 = true := by decide

theorem witness_ErroneousCommandRecordsItsError :
    errorOf 0x8000 0 = some .illop ∧ errorOf 0x0001 0 = some .rsvd ∧ errorOf 0x1009 0 = some .range := by decide

theorem witness_OutOfRangeImmediatesRaiseRange :
    8 < (9#5 : BitVec 5) ∧ 7 < (8#5 : BitVec 5) ∧ 5 < (6#5 : BitVec 5) := by decide

theorem witness_StatusIsStickyAndInert :
    (∃ t : State, runCommand ⟨0x0001, 0⟩ (setStatus ⟨true, 1⟩ demo) = .next t)
      ∧ decode 0x0001 0 ≠ .ok .clrstat ∧ (setStatus ⟨true, 1⟩ demo).status.err = true ∧ errorOf 0x0000 0 = none
      ∧ decode 0x0000 0 ≠ .ok .clrstat ∧ (∃ t : State, exec .clrstat demo = .next t)
      ∧ (nextPorts (withHost [resetPorts])).rst = true ∧ (∃ t : State, step (withHost [resetPorts]) = .next t)
      ∧ decode 0x7001 0 ≠ .ok (.rdsr 0) :=
  ⟨⟨_, rfl⟩, by rintro ⟨⟩, rfl, rfl, by rintro ⟨⟩, ⟨_, rfl⟩, rfl, ⟨_, rfl⟩, fun h => by injection h with h; injection h with h; revert h; decide⟩

theorem witness_WellFormedCommandsSetNoError :
    Instr.WellFormed (.encb 8 0xFF) ∧ (∀ bits : BitVec 15, Instr.encb 8 0xFF ≠ .reserved bits)
      ∧ Instr.encb 8 0xFF ≠ .clrstat := ⟨by decide, by simp, by simp⟩

theorem witness_OnlyTheNamedCommandsWriteARegister :
    (∃ t : State, exec (.ldm .m1 7) demo = .next t ∧ readM .m1 t ≠ readM .m1 demo)
      ∧ (∃ t : State, exec .encclr (withEncoder 1 1) = .next t ∧ t.acc ≠ (withEncoder 1 1).acc)
      ∧ (∃ t : State, exec (.card .m0) algebraDemo = .next t ∧ t.card ≠ algebraDemo.card)
      ∧ (∃ t : State, exec (.dec .m0) algebraDemo = .next t ∧ t.dlen ≠ algebraDemo.dlen)
      ∧ ∃ t : State, exec (.reserved 0) demo = .next t ∧ t.status ≠ demo.status :=
  ⟨⟨_, rfl, by decide⟩, ⟨_, rfl, by decide⟩, ⟨_, rfl, by decide +kernel⟩, ⟨_, rfl, by decide +kernel⟩, _, rfl, by decide⟩

/-- The state of every test meets the invariant's data clauses; State.reset is `resetOf` of some build just so. -/
theorem witness_EveryStepKeepsTheInvariant : Inv demo ∧ ∃ t : State, step demo = .next t := by
  refine ⟨⟨Nat.zero_le _, by decide, by decide, ?_, ⟨0, by decide +kernel, ?_⟩, by decide, .inl rfl, fun _ => rfl⟩, _, rfl⟩
  · intro k _ hk
    interval_cases k <;> rfl
  · intro k hk
    have h : decodeMask demo.build 0 = [] := by decide +kernel
    rw [h]
    interval_cases k <;> rfl

theorem witness_BuildNeverChanges : ∃ t : State, runEdges 2 demo = .next t := ⟨_, rfl⟩

theorem witness_BadParametersAreRefused :
    Build.make? (Vector.replicate 64 0) 256 = none ∧ Build.make? Config.testAlphabet 0 = none
      ∧ ∃ b : Build, Build.make? Config.testAlphabet 65535 = some b := by
  refine ⟨?_, ?_, ?_⟩
  · rw [Build.make?, dif_neg]
    intro h
    exact absurd (h 0 1 rfl) (by decide)
  · rw [Build.make?, dif_pos Config.testAlphabet_injective, dif_neg (by decide)]
  · rw [Build.make?, dif_pos Config.testAlphabet_injective, dif_pos (by decide)]
    exact ⟨_, rfl⟩

theorem witness_EveryCommandButEncbIsIdempotent :
    (∀ n d, Instr.not .m0 .m0 ≠ .encb n d) ∧ ∃ t : State, exec (.not .m0 .m0) demo = .next t := ⟨by simp, _, rfl⟩

theorem witness_CommandsWithAnUnreadDestinationAreIdempotent :
    ((∀ n d, Instr.xor .m2 .m0 .m1 ≠ .encb n d)
        ∧ (∀ rd ra rb : MReg, Instr.xor .m2 .m0 .m1 = .xor rd ra rb → (rd = ra ↔ rd = rb))
        ∧ (∀ rd ra : MReg, Instr.xor .m2 .m0 .m1 = .not rd ra → rd ≠ ra)
        ∧ (∀ rd ra rb : MReg, Instr.xor .m2 .m0 .m1 = .andn rd ra rb → rd = rb → rd = ra)
        ∧ ∃ t : State, exec (.xor .m2 .m0 .m1) algebraDemo = .next t)
      ∧ (MReg.m0 ≠ .m1)
      ∧ ∃ t u : State, (8#5 : BitVec 5) ≤ 8 ∧ exec (.encb 8 0x41) demo = .next t ∧ exec (.encb 8 0x41) t = .next u := by
  refine ⟨⟨by simp, ?_, by simp, by simp, _, rfl⟩, by decide, _, _, by decide, rfl, rfl⟩
  rintro rd ra rb h
  cases h
  decide

/-- A state whose command in flight is due, the host idle. -/
def due (c : Command) : State := { demo with inflight := some ⟨c, 0⟩ }

theorem witness_StepRunsTheDecodedCommand :
    (nextPorts (due ⟨0x3420, 0⟩)).rst = false ∧ (due ⟨0x3420, 0⟩).inflight = some ⟨⟨0x3420, 0⟩, 0⟩
      ∧ decode 0x3420 0 = .ok (.and .m2 .m0 .m1) ∧ decode 0x0001 0 = .error .rsvd
      ∧ decodeTableWord 16 0x3420 = some (.and .m2 .m0 .m1) := ⟨rfl, rfl, rfl, rfl, rfl⟩

theorem witness_OutputPortsFollowTheState :
    (nextPorts (withHost [resetPorts])).rst = true ∧ ∃ t : State, step (withHost [resetPorts]) = .next t := ⟨rfl, _, rfl⟩

theorem witness_CommandIsAcceptedExactlyWhenReadyAndValid :
    (∃ t : State, step (withHost [offerPorts ⟨0x2200, 1⟩]) = .next t)
      ∧ (nextPorts (withHost [offerPorts ⟨0x2200, 1⟩])).cmdValid = true
      ∧ cmdReady (nextPorts (withHost [offerPorts ⟨0x2200, 1⟩])).rst (withHost [offerPorts ⟨0x2200, 1⟩]) = true
      ∧ (withHost [offerPorts ⟨0x2200, 1⟩]).offer = .idle
      ∧ (∃ (s t : State) (f : InFlight), step s = .next t ∧ cmdReady (nextPorts s).rst s = false ∧ t.inflight = some f)
      ∧ (∃ t : State, step algebraDemo = .next t) ∧ (nextPorts algebraDemo).cmdValid = false
      ∧ cmdReady (nextPorts algebraDemo).rst algebraDemo = true :=
  ⟨⟨_, rfl⟩, rfl, rfl, rfl, ⟨{ demo with inflight := some ⟨⟨0x2200, 1⟩, 1⟩ }, _, _, rfl, rfl, rfl⟩, ⟨_, rfl⟩, rfl, rfl⟩

/-- A ready state whose host has presented LDM m0 with data 1 and now presents it with data 2. -/
def tornOffer : State := { withHost [offerPorts ⟨0x2000, 2⟩] with offer := .held ⟨0x2000, 1⟩ }

theorem witness_ChangedOfferIsAcceptedAsAFreeValue :
    (nextPorts tornOffer).cmdValid = true ∧ cmdReady (nextPorts tornOffer).rst tornOffer = true
      ∧ tornOffer.offer = .held ⟨0x2000, 1⟩ ∧ (⟨0x2000, 1⟩ : Command) ≠ presented (nextPorts tornOffer)
      ∧ (∃ t : State, step tornOffer = .next t)
      ∧ ∃ (s t : State) (cmds : List Command), (nextPorts s).cmdValid = true ∧ cmdReady (nextPorts s).rst s = true
        ∧ s.offer = .changed cmds ∧ step s = .next t :=
  ⟨rfl, rfl, rfl, by decide, ⟨_, rfl⟩,
    { tornOffer with offer := .changed [⟨0x2000, 1⟩, ⟨0x2000, 3⟩] }, _, [⟨0x2000, 1⟩, ⟨0x2000, 3⟩], rfl, rfl, rfl, rfl⟩

/-- A state with a response pending at whose coming edge the host presents LDM m0 with data 2. -/
def waitingOffer (o : Offer) : State := { respond 5 (withHost [offerPorts ⟨0x2000, 2⟩]) with offer := o }

theorem witness_OfferFollowsThePorts :
    ((∃ t : State, step demo = .next t) ∧ (nextPorts demo).cmdValid = false)
      ∧ ((∃ t : State, step tornOffer = .next t) ∧ (nextPorts tornOffer).cmdValid = true
        ∧ cmdReady (nextPorts tornOffer).rst tornOffer = true)
      ∧ ∀ o : Offer, (∃ t : State, step (waitingOffer o) = .next t) ∧ (nextPorts (waitingOffer o)).cmdValid = true
        ∧ cmdReady (nextPorts (waitingOffer o)).rst (waitingOffer o) = false ∧ (waitingOffer o).offer = o
        ∧ presented (nextPorts (waitingOffer o)) = ⟨0x2000, 2⟩ ∧ (⟨0x2000, 1⟩ : Command) ≠ ⟨0x2000, 2⟩ :=
  ⟨⟨⟨_, rfl⟩, rfl⟩, ⟨⟨_, rfl⟩, rfl, rfl⟩, fun _ => ⟨⟨_, rfl⟩, rfl, rfl, rfl, rfl, by decide⟩⟩

/-- A response pending, which the host takes at the second edge, while it presents LDM m0 with data 2 from there on. -/
theorem witness_HeldCommandIsTheOneAccepted :
    ∃ t : State,
      runEdges (([{ offerPorts ⟨0x2000, 2⟩ with rspReady := true }] : List PortIn).length + 1)
          (respond 5 (withHost (idlePorts :: ([{ offerPorts ⟨0x2000, 2⟩ with rspReady := true }]
            ++ offerPorts ⟨0x2000, 2⟩ :: [])))) = .next t
        ∧ cmdReady (offerPorts ⟨0x2000, 2⟩).rst t = true ∧ idlePorts.cmdValid = false
        ∧ (∀ p ∈ [{ offerPorts ⟨0x2000, 2⟩ with rspReady := true }], p.cmdValid = true ∧ presented p = ⟨0x2000, 2⟩)
        ∧ (offerPorts ⟨0x2000, 2⟩).cmdValid = true ∧ presented (offerPorts ⟨0x2000, 2⟩) = ⟨0x2000, 2⟩ :=
  ⟨_, rfl, rfl, rfl, by decide, rfl, rfl⟩

/-- An idle edge, a waiting one, and one at which a response is taken. -/
theorem witness_RegistersMoveOnlyWhenAnExecutionEnds :
    ((∃ t : State, step demo = .next t) ∧ (nextPorts demo).rst = false ∧ ∀ c : Command, demo.inflight ≠ some ⟨c, 0⟩)
      ∧ (∃ s t : State, step s = .next t ∧ (nextPorts s).rst = false ∧ s.inflight = some ⟨⟨0x3420, 0⟩, 1⟩
        ∧ ∀ c : Command, s.inflight ≠ some ⟨c, 0⟩)
      ∧ ∃ s t : State, step s = .next t ∧ (nextPorts s).rst = false ∧ (∀ c : Command, s.inflight ≠ some ⟨c, 0⟩)
        ∧ s.inflight = none ∧ s.rsp.pending = true ∧ (nextPorts s).rspReady = true :=
  ⟨⟨⟨_, rfl⟩, rfl, by rintro c ⟨⟩⟩, ⟨{ demo with inflight := some ⟨⟨0x3420, 0⟩, 1⟩ }, _, rfl, rfl, rfl, by rintro c ⟨⟩⟩,
    respond 5 (withHost [takePorts]), _, rfl, rfl, by rintro c ⟨⟩, rfl, rfl, rfl⟩

/-- Not taken, and taken. -/
theorem witness_ResponseIsHeldUntilTaken :
    (OneOutstanding (respond 5 demo) ∧ (respond 5 demo).rsp.pending = true ∧ (nextPorts (respond 5 demo)).rst = false
        ∧ (nextPorts (respond 5 demo)).rspReady = false)
      ∧ ∃ s : State, OneOutstanding s ∧ s.rsp.pending = true ∧ (nextPorts s).rst = false
        ∧ (nextPorts s).rspReady = true :=
  ⟨⟨.inl rfl, rfl, rfl, rfl⟩, respond 5 (withHost [takePorts]), .inl rfl, rfl, rfl, rfl⟩

theorem witness_ExecutionIsInvisibleUntilItEnds :
    ∃ s : State, s.inflight = some ⟨⟨0x3420, 0⟩, 2⟩ ∧ 2 ≤ 2 ∧ ∀ p ∈ s.host, p.rst = false :=
  ⟨{ withHost [takePorts] with inflight := some ⟨⟨0x3420, 0⟩, 2⟩ }, rfl, by decide, by decide⟩

theorem witness_ResetEdgeRestoresTheResetState : (nextPorts (withHost [resetPorts])).rst = true := rfl

theorem witness_UntakenResponseBlocksTheUnit :
    ∃ s : State, s.rsp.pending = true ∧ s.inflight = none ∧ ∀ p ∈ s.host, p.rst = false ∧ p.rspReady = false :=
  ⟨respond 5 (withHost [offerPorts ⟨0x2000, 2⟩]), rfl, rfl, by decide⟩

theorem witness_CommandTransactionRefinesTheFunction :
    ∃ s u : State, Ready s ∧ s.host = commandSchedule ⟨0x2000, 2⟩ (executionEdges ⟨0x2000, 2⟩ s) ++ []
      ∧ runCommand ⟨0x2000, 2⟩ s = .next u :=
  ⟨withHost (commandSchedule ⟨0x2000, 2⟩ (executionEdges ⟨0x2000, 2⟩ demo) ++ []), _, ⟨rfl, rfl, rfl⟩, rfl, rfl⟩

theorem witness_SessionRefinesTheComposition :
    ∃ s u : State, Ready s ∧ s.host = sessionSchedule [⟨0x2000, 2⟩, ⟨0x5800, 0⟩] s ++ []
      ∧ runCommands [⟨0x2000, 2⟩, ⟨0x5800, 0⟩] s = .next u :=
  ⟨withHost (sessionSchedule [⟨0x2000, 2⟩, ⟨0x5800, 0⟩] demo ++ []), _, ⟨rfl, rfl, rfl⟩, rfl, rfl⟩

theorem witness_PseudoInstructionsExpandAsListed :
    1 < (([0x41, 0x42, 0x43, 0x44, 0x45, 0x46, 0x47, 0x48, 0x49] : List Byte).length + 7) / 8 ∧ 7 < 8 := by decide

end Sys2Proof.Tests
end

section
/-!
The scope of a build: which parameters make one (R6, R7), and that no edge changes it (R8, R30).
-/

namespace Sys2Proof

/-- What `Build.make?` refuses (R6, R7): what is not both injective and in range. -/
theorem Build.make?_eq_none (a : Vector Byte 64) (n : Nat) :
    Build.make? a n = none ↔ ¬ ((∀ i j : Fin 64, a[i] = a[j] → i = j) ∧ 1 ≤ n ∧ n ≤ 65535) := by
  unfold Build.make?
  split
  case isTrue hInj =>
    split
    case isTrue hLen => exact ⟨nofun, fun hBad => absurd ⟨hInj, hLen⟩ hBad⟩
    case isFalse hLen => exact ⟨fun _ hGood => hLen hGood.2, fun _ => rfl⟩
  case isFalse hInj => exact ⟨fun _ hGood => hInj hGood.1, fun _ => rfl⟩

/-- What `Build.make?` accepts becomes the build's parameters: a number up to 65535 fits 16 bits (R6). -/
theorem Build.parameters_of_make? {a : Vector Byte 64} {n : Nat} {b : Build} (h : Build.make? a n = some b) :
    b.alphabet = a ∧ b.maxLen.toNat = n := by
  unfold Build.make? at h
  split at h
  case isTrue =>
    split at h
    case isTrue hLen =>
      cases h
      have hFits : n < 2 ^ 16 := by omega
      exact ⟨rfl, Nat.mod_eq_of_lt hFits⟩
    case isFalse => cases h
  case isFalse => cases h

namespace Machine

/-- A property that every step keeps holds after any number of edges if it held before them. -/
theorem runEdges_keeps {P : State → Prop} (hStep : ∀ s t, P s → step s = .next t → P t) (n : Nat) (s t : State)
    (hs : P s) (h : runEdges n s = .next t) : P t := by
  induction n generalizing s with
  | zero =>
    cases h
    exact hs
  | succ n ih =>
    simp only [runEdges] at h
    cases hu : step s with
    | next u =>
      rw [hu] at h
      exact ih u (hStep s u hs hu) h
    | fault r =>
      rw [hu] at h
      cases h
    | refused r =>
      rw [hu] at h
      cases h

@[simp] theorem resetEdge_build (p : PortIn) (s : State) : (resetEdge p s).build = s.build := rfl

@[simp] theorem waitEdge_build (p : PortIn) (c : Command) (n : Nat) (s : State) :
    (waitEdge p c n s).build = s.build := rfl

@[simp] theorem responseEdge_build (p : PortIn) (s : State) : (responseEdge p s).build = s.build := rfl

@[simp] theorem readyEdge_build (p : PortIn) (s : State) : (readyEdge p s).build = s.build := by
  unfold readyEdge
  split <;> rfl

/-- The edge that ends an execution keeps the build, since no command touches it. -/
theorem completeEdge_build {p : PortIn} {c : Command} {s t : State} (h : completeEdge p c s = .next t) :
    t.build = s.build := by
  obtain ⟨u, hu, -, -, -, -, hBuild, -⟩ :=
    runCommand_answers c { s with inflight := none, offer := offerAfter p s.offer }
  cases hu.symm.trans h
  exact hBuild

/-- No edge changes the build, not even one with rst = 1 (R8, R180). -/
theorem edge_build (p : PortIn) (s t : State) : edge p s = .next t → t.build = s.build := by
  refine edge_cases p s (P := fun o => o = .next t → t.build = s.build) ?reset ?complete ?wait ?response ?ready
  case reset =>
    rintro - ⟨⟩
    exact resetEdge_build p s
  case complete =>
    intro c _ _
    exact completeEdge_build
  case wait =>
    rintro c n - - ⟨⟩
    exact waitEdge_build p c n s
  case response =>
    rintro - - - ⟨⟩
    exact responseEdge_build p s
  case ready =>
    rintro - - - ⟨⟩
    exact readyEdge_build p s

theorem step_build {s t : State} (h : step s = .next t) : t.build = s.build :=
  edge_build (nextPorts s) (popPorts s) t h

/-- Settles O41: the build is kept by every step, and PARAM is a function of the build. -/
theorem buildNeverChanges : Obligations.BuildNeverChanges := by
  unfold Obligations.BuildNeverChanges
  intro n s t h
  have hBuild : t.build = s.build :=
    runEdges_keeps (P := fun u => u.build = s.build) (fun u v hu hv => (step_build hv).trans hu) n s t rfl h
  exact ⟨hBuild, congrArg paramWord hBuild⟩

/-- Settles O42: what is refused is what is not injective or not in range, and what is accepted is kept. -/
theorem badParametersAreRefused : Obligations.BadParametersAreRefused := by
  unfold Obligations.BadParametersAreRefused
  intro a n
  refine ⟨?_, fun b => Build.parameters_of_make?⟩
  have hRange : ¬ (1 ≤ n ∧ n ≤ 65535) ↔ n < 1 ∨ 65535 < n := by omega
  have hRepeats : ¬ (∀ i j : Fin 64, a[i] = a[j] → i = j) ↔ ∃ i j : Fin 64, a[i] = a[j] ∧ i ≠ j := by
    simp only [not_forall, exists_prop, ne_eq]
  rw [Build.make?_eq_none, not_and_or, hRange, hRepeats]

end Machine

end Sys2Proof
end

section
/-!
What a command can do to the state, said once as an inversion of `exec` (R46), and from it which commands write which
register (R20).
-/

namespace Sys2Proof

/-- The mask register a command has as its destination, if it has one (R20, R62). -/
def Instr.destination? (i : Instr) : Option MReg :=
  match i with
  | .encst rd => some rd
  | .ldm rd _ => some rd
  | .and rd _ _ => some rd
  | .or rd _ _ => some rd
  | .xor rd _ _ => some rd
  | .not rd _ => some rd
  | .andn rd _ _ => some rd
  | _ => none

/-- The seven commands with a destination. -/
theorem Instr.eq_of_destination? {i : Instr} {r : MReg} (h : i.destination? = some r) :
    i = .encst r ∨ (∃ d, i = .ldm r d) ∨ (∃ ra rb, i = .and r ra rb) ∨ (∃ ra rb, i = .or r ra rb)
      ∨ (∃ ra rb, i = .xor r ra rb) ∨ (∃ ra, i = .not r ra) ∨ ∃ ra rb, i = .andn r ra rb := by
  cases i <;> cases h <;> simp

namespace Machine

/-- `Effect i s t`: `t` is what the command `i` may make of `s`. `exec_effect` ties it to `exec`. -/
inductive Effect (i : Instr) (s : State) : State → Prop where
  /-- It only answers (R102, R140, R142, R143). -/
  | responds (v : Mask) : Effect i s (respond v s)
  /-- It writes its destination and answers the value written (R87, R120, R141). -/
  | writesMask (rd : MReg) (v : Mask) (hDest : i.destination? = some rd) : Effect i s (respond v (writeM rd v s))
  /-- ENCCLR (R85). -/
  | clearsEncoder (hCmd : i = .encclr) : Effect i s (respond 0 (setEncoder 0 0 s))
  /-- ENCB (R86). -/
  | scans (n : BitVec 5) (d : Mask) (hCmd : i = .encb n d) : Effect i s (scanIntoAcc n.toNat d s)
  /-- CARD (R126). -/
  | counts (v : Mask) (ra : MReg) (hCmd : i = .card ra) :
      Effect i s (respond v (setCard (BitVec.ofNat 7 (popcount (readM ra s))) s))
  /-- DEC (R101). -/
  | decodes (v : Mask) (ra : MReg) (hCmd : i = .dec ra) :
      Effect i s (respond v (setDecoded (decodeMask s.build (readM ra s)) s))
  /-- CLRSTAT (R144). -/
  | clearsStatus (hCmd : i = .clrstat) : Effect i s (respond 0 (setStatus clearedStatus s))
  /-- It raises an error, which is all it does (R163). -/
  | fails (e : ErrCode) : Effect i s (raiseError e s)

/-- Whatever a command does is one of these effects. -/
theorem exec_effect {i : Instr} {s t : State} (h : exec i s = .next t) : Effect i s t := by
  cases i with
  | encb n d =>
    cases (exec_encb n d s).symm.trans h
    split
    case isTrue => exact .fails .range
    case isFalse => exact .scans n d rfl
  | rddec k =>
    cases (exec_rddec k s).symm.trans h
    split
    case isTrue => exact .fails .range
    case isFalse => exact .responds _
  | rdsr n =>
    cases (exec_rdsr n s).symm.trans h
    split
    case h_1 => exact .responds _
    case h_2 => exact .fails .range
  | nop => cases h; exact .responds 0
  | rdm ra => cases h; exact .responds _
  | encclr => cases h; exact .clearsEncoder rfl
  | card ra => cases h; exact .counts _ ra rfl
  | dec ra => cases h; exact .decodes _ ra rfl
  | clrstat => cases h; exact .clearsStatus rfl
  | reserved bits => cases h; exact .fails .illop
  | encst rd => cases h; exact .writesMask rd _ rfl
  | ldm rd d => cases h; exact .writesMask rd d rfl
  | and rd ra rb => cases h; exact .writesMask rd _ rfl
  | or rd ra rb => cases h; exact .writesMask rd _ rfl
  | xor rd ra rb => cases h; exact .writesMask rd _ rfl
  | not rd ra => cases h; exact .writesMask rd _ rfl
  | andn rd ra rb => cases h; exact .writesMask rd _ rfl

/-! ### Who writes a register (R20) -/

section Writers

variable {i : Instr} {s t : State} (h : Effect i s t)
include h

theorem Effect.destination_of_readM_ne {r : MReg} (hNe : readM r t ≠ readM r s) : i.destination? = some r := by
  cases h with
  | writesMask rd v hDest =>
    by_cases hr : r = rd
    · exact hr ▸ hDest
    · simp [hr] at hNe
  | scans n d => exact absurd (readM_congr r s _ rfl) hNe
  | _ => simp at hNe

theorem Effect.encoder_command_of_ne (hNe : t.acc ≠ s.acc ∨ t.cnt ≠ s.cnt) :
    i = .encclr ∨ ∃ n d, i = .encb n d := by
  cases h with
  | clearsEncoder hCmd => exact .inl hCmd
  | scans n d hCmd => exact .inr ⟨n, d, hCmd⟩
  | _ => simp at hNe

theorem Effect.card_command_of_ne (hNe : t.card ≠ s.card) : ∃ ra, i = .card ra := by
  cases h with
  | counts v ra hCmd => exact ⟨ra, hCmd⟩
  | _ => exact absurd rfl hNe

theorem Effect.dec_command_of_ne (hNe : t.dlen ≠ s.dlen ∨ t.dout ≠ s.dout) : ∃ ra, i = .dec ra := by
  cases h with
  | decodes v ra hCmd => exact ⟨ra, hCmd⟩
  | _ => exact hNe.elim (absurd rfl) (absurd rfl)

theorem Effect.clrstat_or_error_of_ne (hNe : t.status ≠ s.status) : i = .clrstat ∨ t.rsp.err = true := by
  cases h with
  | clearsStatus hCmd => exact .inl hCmd
  | fails e => exact .inr rfl
  | _ => exact absurd rfl hNe

end Writers

/-- Settles O36: each register's writers are read off the effects a command can have. -/
theorem onlyTheNamedCommandsWriteARegister : Obligations.OnlyTheNamedCommandsWriteARegister := by
  unfold Obligations.OnlyTheNamedCommandsWriteARegister
  intro i s t h
  have hEffect : Effect i s t := exec_effect h
  exact ⟨fun _ hNe => Instr.eq_of_destination? (hEffect.destination_of_readM_ne hNe), hEffect.encoder_command_of_ne,
    hEffect.card_command_of_ne, hEffect.dec_command_of_ne, hEffect.clrstat_or_error_of_ne⟩

end Machine

end Sys2Proof
end

section
/-!
The reset state (R34), and the invariants of R28, R35, R42 and R44: they hold at reset, each operation over the state
keeps them, and so every edge does.
-/

namespace Sys2Proof.Machine

/-! ### The reset state (R34) -/

theorem readM_resetOf (r : MReg) (b : Build) (o : Offer) (h : List PortIn) (n : Nat) :
    readM r (State.resetOf b o h n) = 0 := by
  cases r <;> rfl

theorem readDout_resetOf (k : Nat) (b : Build) (o : Offer) (h : List PortIn) (n : Nat) :
    readDout k (State.resetOf b o h n) = 0 := by
  simp only [readDout, State.resetOf, Vector.getElem?_replicate]
  split <;> rfl

/-- Settles O38: M and DOUT by their readers, the other registers as R34 writes them. -/
theorem resetLeavesTheResetValues : Obligations.ResetLeavesTheResetValues := by
  unfold Obligations.ResetLeavesTheResetValues
  refine ⟨fun b o h n => ⟨fun r => readM_resetOf r b o h n, fun k => readDout_resetOf k b o h n, ?_⟩, ?_⟩
  · exact ⟨rfl, rfl, rfl, rfl, rfl, rfl, rfl⟩
  · exact ⟨Config.build, .idle, [], 0, rfl⟩

/-! ### DLEN and DOUT -/

theorem toNat_ofNat_popcount (a : Mask) : (BitVec.ofNat 7 (popcount a)).toNat = popcount a := by
  have h : popcount a < 2 ^ 7 := by
    have := popcount_le a
    omega
  rw [BitVec.toNat_ofNat, Nat.mod_eq_of_lt h]

/-- A decoded sequence is at most 64 bytes long (R35). -/
theorem HoldsDecode.dlen_le {s : State} (h : HoldsDecode s) : s.dlen.toNat ≤ 64 := by
  obtain ⟨a, hLen, -⟩ := h
  exact hLen ▸ popcount_le a

/-- DOUT is 0x00 past the decoded sequence (R35). -/
theorem HoldsDecode.dout_tail {s : State} (h : HoldsDecode s) (k : Nat) (hk : s.dlen.toNat ≤ k) (hk64 : k < 64) :
    readDout k s = 0 := by
  obtain ⟨a, hLen, hDout⟩ := h
  have hPast : (decodeMask s.build a).length ≤ k := by rwa [length_decodeMask, ← hLen]
  rw [hDout k hk64, List.getD_eq_default _ _ hPast]

/-- What DEC leaves is the decode of the mask it read (R101). -/
theorem holdsDecode_setDecoded (a : Mask) (s : State) : HoldsDecode (setDecoded (decodeMask s.build a) s) := by
  refine ⟨a, ?_, fun k hk => ?_⟩
  · rw [setDecoded_dlen, length_decodeMask, toNat_ofNat_popcount]
  · rw [readDout, setDecoded_dout, Vector.getElem?_eq_getElem hk, Option.getD_some, getElem_doutOf _ k hk]
    rfl

/-- The reset values are the decode of the mask 0. -/
theorem holdsDecode_resetOf (b : Build) (o : Offer) (h : List PortIn) (n : Nat) :
    HoldsDecode (State.resetOf b o h n) := by
  have hPop : popcount 0 = 0 := by decide +kernel
  refine ⟨0, hPop.symm, fun k _ => ?_⟩
  have hNil : decodeMask b 0 = [] := List.eq_nil_of_length_eq_zero ((length_decodeMask b 0).trans hPop)
  rw [readDout_resetOf]
  exact (congrArg (fun q => q.getD k 0) hNil).symm

/-! ### STATUS -/

/-- Recording an error leaves a legal STATUS: the code recorded is 1, 2 or 3, or the first one stays (R28, R165). -/
theorem legalStatus_recordError (e : ErrCode) (st : Status) (h : legalStatus st = true) :
    legalStatus (recordError e st) = true := by
  cases hErr : st.err with
  | true => simpa [legalStatus, recordError, hErr] using h
  | false => cases e <;> simp [legalStatus, recordError, hErr, errCode]

/-! ### Each operation keeps the invariants -/

theorem inv_resetOf (b : Build) (o : Offer) (h : List PortIn) (n : Nat) : Inv (State.resetOf b o h n) where
  cnt_le := Nat.zero_le _
  card_le := Nat.zero_le _
  dlen_le := (holdsDecode_resetOf b o h n).dlen_le
  dout_tail := (holdsDecode_resetOf b o h n).dout_tail
  decoded := holdsDecode_resetOf b o h n
  status_legal := rfl
  one_outstanding := .inl rfl
  error_data := nofun

/-- Settles O39: the reset state is that of some build. -/
theorem invariantHoldsAtReset : Obligations.InvariantHoldsAtReset := inv_resetOf _ _ _ _

section Operations

variable {s : State} (hs : Inv s)
include hs

theorem inv_writeM (r : MReg) (v : Mask) : Inv (writeM r v s) := { hs with }

theorem inv_setEncoder (a : Mask) (c : BitVec 16) (hc : c.toNat ≤ s.build.maxLen.toNat) : Inv (setEncoder a c s) :=
  { hs with cnt_le := hc }

theorem inv_setCard (c : BitVec 7) (hc : c.toNat ≤ 64) : Inv (setCard c s) := { hs with card_le := hc }

theorem inv_setDecoded (a : Mask) : Inv (setDecoded (decodeMask s.build a) s) :=
  have hDecode := holdsDecode_setDecoded a s
  { hs with dlen_le := hDecode.dlen_le, dout_tail := hDecode.dout_tail, decoded := hDecode }

theorem inv_setStatus (st : Status) (h : legalStatus st = true) : Inv (setStatus st s) :=
  { hs with status_legal := h }

/-- A response may come where no command executes, and one that reports an error must be 0 (R42, R44). -/
theorem inv_setRsp (r : Response) (hFree : s.inflight = none) (hr : r.err = true → r.data = 0) : Inv (setRsp r s) :=
  { hs with one_outstanding := .inl hFree, error_data := hr }

theorem inv_respond (v : Mask) (hFree : s.inflight = none) : Inv (respond v s) := inv_setRsp hs _ hFree nofun

theorem inv_raiseError (e : ErrCode) (hFree : s.inflight = none) : Inv (raiseError e s) :=
  inv_setRsp (inv_setStatus hs _ (legalStatus_recordError e _ hs.status_legal)) _ hFree fun _ => rfl

/-- The lanes accepted fit under MAX_LEN (R86). -/
theorem inv_scanIntoAcc (n : Nat) (d : Mask) (hFree : s.inflight = none) : Inv (scanIntoAcc n d s) := by
  have hRoom : (scanIntoAcc n d s).cnt.toNat ≤ s.build.maxLen.toNat := by
    have hCnt : s.cnt.toNat ≤ s.build.maxLen.toNat := hs.cnt_le
    rw [toNat_cnt_scanIntoAcc, acceptedLanes]
    omega
  exact inv_respond (inv_setEncoder hs _ _ hRoom) _ hFree

/-- A command's effect keeps the invariants, where it is the only command outstanding. -/
theorem Effect.keeps_inv {i : Instr} {t : State} (h : Effect i s t) (hFree : s.inflight = none) : Inv t := by
  cases h with
  | responds v => exact inv_respond hs v hFree
  | writesMask rd v => exact inv_respond (inv_writeM hs rd v) v hFree
  | clearsEncoder => exact inv_respond (inv_setEncoder hs 0 0 (Nat.zero_le _)) 0 hFree
  | scans n d => exact inv_scanIntoAcc hs n.toNat d hFree
  | counts v ra =>
    exact inv_respond (inv_setCard hs _ ((toNat_ofNat_popcount _).trans_le (popcount_le _))) v hFree
  | decodes v ra => exact inv_respond (inv_setDecoded hs _) v hFree
  | clearsStatus => exact inv_respond (inv_setStatus hs clearedStatus rfl) 0 hFree
  | fails e => exact inv_raiseError hs e hFree

theorem runCommand_keeps_inv {c : Command} {t : State} (hFree : s.inflight = none) (h : runCommand c s = .next t) :
    Inv t := by
  unfold runCommand at h
  split at h
  case h_1 i _ => exact (exec_effect h).keeps_inv hs hFree
  case h_2 e _ =>
    cases h
    exact inv_raiseError hs e hFree

/-! ### Each edge keeps the invariants -/

theorem inv_popPorts : Inv (popPorts s) := { hs with }

theorem completeEdge_keeps_inv {p : PortIn} {c : Command} {t : State} (h : completeEdge p c s = .next t) : Inv t :=
  have hIdle : Inv { s with inflight := none, offer := offerAfter p s.offer } :=
    { hs with one_outstanding := .inl rfl }
  runCommand_keeps_inv hIdle rfl h

/-- A command goes on executing, still beside no pending response. -/
theorem inv_waitEdge (p : PortIn) (c : Command) (n : Nat) (hPending : s.rsp.pending = false) :
    Inv (waitEdge p c n s) :=
  { hs with one_outstanding := .inr hPending }

theorem inv_responseEdge (p : PortIn) (hFree : s.inflight = none) : Inv (responseEdge p s) :=
  { hs with one_outstanding := .inl hFree }

/-- A command is accepted only while no response is pending (R42). -/
theorem inv_readyEdge (p : PortIn) (hPending : s.rsp.pending = false) : Inv (readyEdge p s) := by
  unfold readyEdge
  split <;> exact { hs with one_outstanding := .inr hPending }

theorem edge_keeps_inv (p : PortIn) (t : State) : edge p s = .next t → Inv t := by
  refine edge_cases p s (P := fun o => o = .next t → Inv t) ?reset ?complete ?wait ?response ?ready
  case reset =>
    rintro - ⟨⟩
    exact inv_resetOf _ _ _ _
  case complete =>
    intro c _ _
    exact completeEdge_keeps_inv hs
  case wait =>
    rintro c n - hBusy ⟨⟩
    have hPending : s.rsp.pending = false := hs.one_outstanding.resolve_left (by simp [hBusy])
    exact inv_waitEdge hs p c n hPending
  case response =>
    rintro - hFree - ⟨⟩
    exact inv_responseEdge hs p hFree
  case ready =>
    rintro - - hPending ⟨⟩
    exact inv_readyEdge hs p hPending

end Operations

/-- Settles O40: the step is an edge after the ports are read, and every edge keeps the invariants. -/
theorem everyStepKeepsTheInvariant : Obligations.EveryStepKeepsTheInvariant := by
  unfold Obligations.EveryStepKeepsTheInvariant
  intro s t hs h
  exact edge_keeps_inv (inv_popPorts hs) (nextPorts s) t h

end Sys2Proof.Machine
end

section
/-!
The edges that neither end an execution nor reset: they leave every register, and RSP but for its taking (R43, R46).
-/

namespace Sys2Proof.Machine

@[simp] theorem readyEdge_registersOf (p : PortIn) (s : State) : registersOf (readyEdge p s) = registersOf s := by
  unfold readyEdge
  split <;> rfl

@[simp] theorem readyEdge_rsp (p : PortIn) (s : State) : (readyEdge p s).rsp = s.rsp := by
  unfold readyEdge
  split <;> rfl

/-- RSP is left alone but where the host takes it. -/
theorem responseEdge_rsp (p : PortIn) (s : State) (hPending : s.rsp.pending = true) :
    (responseEdge p s).rsp = if p.rspReady = true then { s.rsp with pending := false } else s.rsp := by
  cases hReady : p.rspReady <;> simp [responseEdge, hReady, ← hPending]

theorem edge_moves_only_taken_rsp (p : PortIn) (s t : State) (hRst : p.rst = false)
    (hNotDue : ∀ c : Command, s.inflight ≠ some ⟨c, 0⟩) : edge p s = .next t →
      registersOf t = registersOf s
        ∧ t.rsp = (if s.inflight = none ∧ s.rsp.pending = true ∧ p.rspReady = true
            then { s.rsp with pending := false } else s.rsp) := by
  refine edge_cases p s (P := fun o => o = .next t → _) ?reset ?complete ?wait ?response ?ready
  case reset =>
    intro hReset
    simp [hRst] at hReset
  case complete =>
    intro c _ hDue
    exact absurd hDue (hNotDue c)
  case wait =>
    rintro c n - hBusy ⟨⟩
    rw [if_neg (by simp [hBusy])]
    exact ⟨rfl, rfl⟩
  case response =>
    rintro - hFree hPending ⟨⟩
    exact ⟨rfl, by simp [responseEdge_rsp p s hPending, hFree, hPending]⟩
  case ready =>
    rintro - - hPending ⟨⟩
    simp [hPending]

/-- Settles O59: RSP and the registers by the edge's cases, the build by `step_build`. -/
theorem registersMoveOnlyWhenAnExecutionEnds : Obligations.RegistersMoveOnlyWhenAnExecutionEnds := by
  unfold Obligations.RegistersMoveOnlyWhenAnExecutionEnds
  intro s t h hRst hNotDue
  obtain ⟨hRegs, hRsp⟩ := edge_moves_only_taken_rsp (nextPorts s) (popPorts s) t hRst hNotDue h
  exact ⟨hRegs, step_build h, hRsp⟩

end Sys2Proof.Machine
end

section
/-!
The clock, case by case: what each kind of edge makes of the state as an equation of `step`, which edge accepts a
command (R41, R42), what it accepts (R52), and what becomes of the host's offer.
-/

namespace Sys2Proof.Machine

/-! ### The output ports (R40, R42) -/

/-- cmd_ready in R42's words. -/
theorem cmdReady_iff (rst : Bool) (s : State) :
    cmdReady rst s = true ↔ rst = false ∧ s.inflight = none ∧ s.rsp.pending = false := by
  simp [cmdReady, and_assoc]

theorem inflight_of_cmdReady {rst : Bool} {s : State} (h : cmdReady rst s = true) : s.inflight = none := by
  obtain ⟨-, hFree, -⟩ := (cmdReady_iff rst s).1 h
  exact hFree

/-- rsp_valid as R40 and R181 have it together. -/
theorem rspValid_iff (rst : Bool) (s : State) : rspValid rst s = true ↔ rst = false ∧ s.rsp.pending = true := by
  simp [rspValid]

/-! ### The step, one equation for each kind of edge -/

section Equations

variable {s : State}

theorem step_reset (hRst : (nextPorts s).rst = true) : step s = .next (resetEdge (nextPorts s) (popPorts s)) := by
  simp [step, edge, hRst]

variable (hRst : (nextPorts s).rst = false)
include hRst

theorem step_due {c : Command} (hDue : s.inflight = some ⟨c, 0⟩) :
    step s = runCommand c
      { s with host := s.host.tail, inflight := none, offer := offerAfter (nextPorts s) s.offer } := by
  simp only [step, edge, hRst, popPorts_inflight, hDue]
  rfl

theorem step_wait {c : Command} {n : Nat} (hBusy : s.inflight = some ⟨c, n + 1⟩) :
    step s = .next (waitEdge (nextPorts s) c n (popPorts s)) := by
  simp [step, edge, hRst, hBusy]

theorem step_response (hFree : s.inflight = none) (hPending : s.rsp.pending = true) :
    step s = .next (responseEdge (nextPorts s) (popPorts s)) := by
  simp [step, edge, hRst, hFree, hPending]

end Equations

theorem step_ready {s : State} (hReady : cmdReady (nextPorts s).rst s = true) :
    step s = .next (readyEdge (nextPorts s) (popPorts s)) := by
  obtain ⟨hRst, hFree, hPending⟩ := (cmdReady_iff _ s).1 hReady
  simp [step, edge, hRst, hFree, hPending]

/-- A ready edge at which a command is presented accepts one (R41). -/
theorem step_accept {s : State} (hValid : (nextPorts s).cmdValid = true)
    (hReady : cmdReady (nextPorts s).rst s = true) :
    step s = .next (acceptEdge (nextPorts s) (popPorts s)) := by
  rw [step_ready hReady, readyEdge, if_pos hValid]

/-- A ready edge at which nothing is presented only uses up the schedule and ends the offer (R41, log entry 6). -/
theorem step_idle {s : State} (hInvalid : (nextPorts s).cmdValid = false)
    (hReady : cmdReady (nextPorts s).rst s = true) :
    step s = .next { popPorts s with offer := .idle } := by
  rw [step_ready hReady, readyEdge, if_neg (by simp [hInvalid])]

/-- The edge that ends an execution always answers, since the command does. -/
theorem completeEdge_answers (p : PortIn) (c : Command) (s : State) :
    ∃ t, completeEdge p c s = .next t
      ∧ KeepsOutside { s with inflight := none, offer := offerAfter p s.offer } t := by
  obtain ⟨t, ht, -, hOutside⟩ := runCommand_answers c { s with inflight := none, offer := offerAfter p s.offer }
  exact ⟨t, ht, hOutside⟩

/-- Every edge of every state leads to a next state (log entry 15). -/
theorem step_answers (s : State) : ∃ t, step s = .next t := by
  refine edge_cases (nextPorts s) (popPorts s) (P := fun o => ∃ t, o = .next t) ?reset ?complete ?wait ?response ?ready
  case complete =>
    intro c _ _
    obtain ⟨t, ht, -⟩ := completeEdge_answers (nextPorts s) c (popPorts s)
    exact ⟨t, ht⟩
  all_goals
    intros
    exact ⟨_, rfl⟩

/-! ### The host's side and the command in flight -/

@[simp] theorem readyEdge_host (p : PortIn) (s : State) : (readyEdge p s).host = s.host := by
  unfold readyEdge
  split <;> rfl

/-- Every edge uses up one entry of the host's schedule. -/
theorem step_host {s t : State} : step s = .next t → t.host = s.host.tail := by
  refine edge_cases (nextPorts s) (popPorts s) (P := fun o => o = .next t → t.host = s.host.tail)
    ?reset ?complete ?wait ?response ?ready
  case complete =>
    intro c _ _ h
    obtain ⟨u, hu, -, -, hHost, -, -⟩ := completeEdge_answers (nextPorts s) c (popPorts s)
    cases hu.symm.trans h
    exact hHost
  case ready =>
    rintro - - - ⟨⟩
    exact readyEdge_host _ _
  case reset =>
    rintro - ⟨⟩
    rfl
  case wait =>
    rintro c n - - ⟨⟩
    rfl
  case response =>
    rintro - - - ⟨⟩
    rfl

/-- An edge at which the FBCU is not ready follows the host's offer, and puts no command into execution. -/
theorem step_not_ready {s t : State} (hReady : cmdReady (nextPorts s).rst s = false) : step s = .next t →
    t.offer = offerAfter (nextPorts s) s.offer
      ∧ ∀ f : InFlight, t.inflight = some f → s.inflight = some ⟨f.cmd, f.wait + 1⟩ := by
  refine edge_cases (nextPorts s) (popPorts s) (P := fun o => o = .next t → _)
    ?reset ?complete ?wait ?response ?ready
  case reset =>
    rintro - ⟨⟩
    exact ⟨rfl, nofun⟩
  case complete =>
    intro c _ _ h
    obtain ⟨u, hu, hInflight, hOffer, -⟩ := completeEdge_answers (nextPorts s) c (popPorts s)
    cases hu.symm.trans h
    exact ⟨hOffer, by simp [hInflight]⟩
  case wait =>
    rintro c n - hBusy ⟨⟩
    refine ⟨rfl, ?_⟩
    rintro f ⟨⟩
    exact hBusy
  case response =>
    rintro - hFree - ⟨⟩
    refine ⟨rfl, fun f hf => ?_⟩
    cases hFree.symm.trans hf
  case ready =>
    intro hRst hFree hPending
    have hIsReady : cmdReady (nextPorts s).rst s = true := (cmdReady_iff _ s).2 ⟨hRst, hFree, hPending⟩
    simp [hReady] at hIsReady

/-- An offer the host has changed before stays changed, with the command now presented recorded (R52). -/
theorem offerAfter_changed (p : PortIn) (cmds : List Command) (h : p.cmdValid = true) :
    offerAfter p (.changed cmds) = .changed (presented p :: cmds) := by
  simp [offerAfter, h]

/-- An offer becomes changed at the edge at which the host presents another command (R52). -/
theorem offerAfter_held_other (p : PortIn) (c : Command) (h : p.cmdValid = true) (hNe : c ≠ presented p) :
    offerAfter p (.held c) = .changed [presented p, c] := by
  simp [offerAfter, h, hNe]

/-! ### The handshake's statements (R40 to R43, R46, R52) -/

/-- Settles O46: the ports by their definitions, the end of a reset edge by the equation of the step. -/
theorem outputPortsFollowTheState : Obligations.OutputPortsFollowTheState := by
  unfold Obligations.OutputPortsFollowTheState
  refine ⟨fun rst s => ⟨cmdReady_iff rst s, rspValid_iff rst s, rfl, rfl⟩, fun s t hRst h => ?_⟩
  cases (step_reset hRst).symm.trans h
  rfl

/-- Settles O45: the edge of a due command is `runCommand`; a placed table word is due at an idle edge. -/
theorem stepRunsTheDecodedCommand : Obligations.StepRunsTheDecodedCommand := by
  unfold Obligations.StepRunsTheDecodedCommand
  refine ⟨fun s c hRst hDue => ⟨fun i hi => ?_, fun e he => ?_⟩, fun s nbits w i hi => ?_⟩
  · rw [step_due hRst hDue, runCommand, hi]
  · rw [step_due hRst hDue, runCommand, he]
  · have hDecode : decode (tableCommand nbits w).op (tableCommand nbits w).data = .ok i := by
      unfold decodeTableWord at hi
      split at hi
      case h_1 j hj =>
        cases hi
        exact hj
      case h_2 => cases hi
    rw [step_due (s := s.withFetchWord nbits w) rfl rfl, runCommand, hDecode]
    rfl

/-- Settles O47: a ready edge by the equations of an accepting and of an idle edge, any other by `step_not_ready`. -/
theorem commandIsAcceptedExactlyWhenReadyAndValid : Obligations.CommandIsAcceptedExactlyWhenReadyAndValid := by
  unfold Obligations.CommandIsAcceptedExactlyWhenReadyAndValid
  intro s t h
  have hIdle (hInvalid : (nextPorts s).cmdValid = false) (hReady : cmdReady (nextPorts s).rst s = true) :
      t = { popPorts s with offer := .idle } := by
    cases (step_idle hInvalid hReady).symm.trans h
    rfl
  refine ⟨fun hValid hReady => ?accepts, fun hNot f hf => ?others, fun hInvalid hReady => ?idle⟩
  case accepts =>
    cases (step_accept hValid hReady).symm.trans h
    exact ⟨acceptedCommand (nextPorts s) s, rfl, rfl, rfl, acceptedCommand_held (nextPorts s) s hValid⟩
  case others =>
    cases hReady : cmdReady (nextPorts s).rst s with
    | false => exact (step_not_ready hReady h).2 f hf
    | true =>
      have hInvalid : (nextPorts s).cmdValid = false := hNot.resolve_right (by simp [hReady])
      simp [hIdle hInvalid hReady, inflight_of_cmdReady hReady] at hf
  case idle =>
    rw [hIdle hInvalid hReady]
    exact ⟨rfl, rfl, inflight_of_cmdReady hReady, rfl, rfl, rfl, rfl⟩

/-- Settles O48: from the record of a changed offer `acceptedCommand` is the free value. -/
theorem changedOfferIsAcceptedAsAFreeValue : Obligations.ChangedOfferIsAcceptedAsAFreeValue := by
  unfold Obligations.ChangedOfferIsAcceptedAsAFreeValue
  intro s t c cmds hValid hReady hOffer h
  have hChanged : offerAfter (nextPorts s) s.offer = .changed (presented (nextPorts s) :: cmds) := by
    obtain hOffer | ⟨hOffer, hNe, rfl⟩ := hOffer
    · rw [hOffer, offerAfter_changed _ cmds hValid]
    · rw [hOffer, offerAfter_held_other _ c hValid hNe]
  have hCommand : acceptedCommand (nextPorts s) s
      = Config.unstableCommand s.draws (presented (nextPorts s) :: cmds) (registersOf s) s.build := by
    rw [acceptedCommand, hChanged]
  cases (step_accept hValid hReady).symm.trans h
  exact ⟨acceptedCommand (nextPorts s) s, hCommand, rfl⟩

/-- Settles O49: with one command outstanding at most, the edge of a pending response is `responseEdge`. -/
theorem responseIsHeldUntilTaken : Obligations.ResponseIsHeldUntilTaken := by
  unfold Obligations.ResponseIsHeldUntilTaken
  intro s hOne hPending hRst
  have hFree : s.inflight = none := hOne.resolve_right (by simp [hPending])
  exact ⟨_, step_response hRst hFree hPending, responseEdge_rsp _ (popPorts s) hPending, rfl, hFree⟩

/-- Settles O57: an accepting edge ends the offer; any other follows `offerAfter`, which the clauses evaluate. -/
theorem offerFollowsThePorts : Obligations.OfferFollowsThePorts := by
  unfold Obligations.OfferFollowsThePorts
  intro s t h
  refine ⟨fun hInvalid => ?withdrawn, fun hValid hReady => ?accepted, fun hValid hReady => ?waiting⟩
  case withdrawn =>
    cases hReady : cmdReady (nextPorts s).rst s with
    | false => rw [(step_not_ready hReady h).1, offerAfter_withdrawn _ _ hInvalid]
    | true =>
      cases (step_idle hInvalid hReady).symm.trans h
      rfl
  case accepted =>
    cases (step_accept hValid hReady).symm.trans h
    rfl
  case waiting =>
    rw [(step_not_ready hReady h).1]
    refine ⟨fun hIdle => offerAfter_held _ _ hValid (.inl hIdle), fun hHeld => ?_, fun c hHeld hNe => ?_,
      fun cmds hChanged => ?_⟩
    · rw [offerAfter_held _ _ hValid (.inr hHeld), hHeld]
    · rw [hHeld, offerAfter_held_other _ c hValid hNe]
    · rw [hChanged, offerAfter_changed _ cmds hValid]

end Sys2Proof.Machine
end

section
/-!
Every word is a command or erroneous (R47), and which commands, repeated, leave the state as it is (R49).
-/

namespace Sys2Proof

/-! ### Every word decodes to a well-formed command or is erroneous (R47, R67) -/

/-- The decoder's range checks are those of `WellFormed` (R64). -/
theorem wellFormed_of_commandOf {o : Operation} {w : CmdWord} {d : Mask} {i : Instr} (h : commandOf o w d = .ok i) :
    i.WellFormed := by
  cases o with
  | encb | rddec | rdsr =>
    simp only [commandOf] at h
    split at h
    case isTrue => cases h
    case isFalse hRange =>
      cases h
      exact decide_eq_true (BitVec.not_lt.1 hRange)
  | _ =>
    cases h
    rfl

theorem wellFormed_of_decode {w : CmdWord} {d : Mask} {i : Instr} (h : decode w d = .ok i) : i.WellFormed := by
  unfold decode at h
  split at h
  case h_1 =>
    cases h
    rfl
  case h_2 row _ =>
    split at h
    case isTrue => cases h
    case isFalse => exact wellFormed_of_commandOf h

theorem errorOf_eq_some_or_decode (w : CmdWord) (d : Mask) :
    (∃ e, errorOf w d = some e)
      ∨ ∃ i : Instr, decode w d = .ok i ∧ i.WellFormed ∧ ∀ bits : BitVec 15, i ≠ .reserved bits := by
  unfold errorOf
  split
  case h_1 e _ => exact .inl ⟨e, rfl⟩
  case h_2 => exact .inl ⟨.illop, rfl⟩
  case h_3 i hNot hOk => exact .inr ⟨i, hOk, wellFormed_of_decode hOk, hNot⟩

namespace Machine

/-- Settles O37: the command-level function and the step always answer, and `decode` checks what `WellFormed` says. -/
theorem theMachineIsTotal : Obligations.TheMachineIsTotal := by
  unfold Obligations.TheMachineIsTotal
  refine ⟨fun c s => ?_, errorOf_eq_some_or_decode, step_answers⟩
  obtain ⟨t, ht, hPending, -⟩ := runCommand_answers c s
  refine ⟨t, ⟨ht, hPending⟩, ?_⟩
  rintro u ⟨hu, -⟩
  cases ht.symm.trans hu
  rfl

/-! ### Repeating the shared operations -/

@[simp] theorem readM_writeAlgebra (q : MReg) (f : Mask → Mask → Mask) (rd ra rb : MReg) (s : State) :
    readM q (writeAlgebra f rd ra rb s) = if q = rd then f (readM ra s) (readM rb s) else readM q s := by
  simp [writeAlgebra]

/-- Writing the same value to the same mask register again, with the same response, changes nothing. -/
theorem respond_writeM_repeated (r : MReg) (v : Mask) (s : State) :
    respond v (writeM r v (respond v (writeM r v s))) = respond v (writeM r v s) := by
  cases r <;> rfl

/-- An algebra write leaves the state as it is, repeated, if its result is the same again. -/
theorem writeAlgebra_repeated {f : Mask → Mask → Mask} {rd ra rb : MReg} {s : State}
    (hSame : f (readM ra (writeAlgebra f rd ra rb s)) (readM rb (writeAlgebra f rd ra rb s))
      = f (readM ra s) (readM rb s)) :
    writeAlgebra f rd ra rb (writeAlgebra f rd ra rb s) = writeAlgebra f rd ra rb s := by
  rw [writeAlgebra, hSame]
  exact respond_writeM_repeated rd _ s

theorem acc_scanIntoAcc (n : Nat) (d : Mask) (s : State) :
    (scanIntoAcc n d s).acc = s.acc ||| encodeBytes s.build ((List.range (acceptedLanes n s)).map (lane d)) := by
  rw [scanIntoAcc_spec]

@[simp] theorem build_scanIntoAcc (n : Nat) (d : Mask) (s : State) : (scanIntoAcc n d s).build = s.build := rfl

/-- A repeated ENCB accepts no more lanes than the first did: there is no more room (R86). -/
theorem acceptedLanes_repeated_le (n : Nat) (d : Mask) (s : State) :
    acceptedLanes n (scanIntoAcc n d s) ≤ acceptedLanes n s := by
  have hCnt := toNat_cnt_scanIntoAcc n d s
  simp only [acceptedLanes, build_scanIntoAcc] at hCnt ⊢
  omega

/-- The first lanes of a scan are in its result, so scanning them into it adds nothing (R83). -/
theorem encodeBytes_or_firstLanes (b : Build) (d : Mask) (m n : Nat) (hle : m ≤ n) (a : Mask) :
    (a ||| encodeBytes b ((List.range n).map (lane d))) ||| encodeBytes b ((List.range m).map (lane d))
      = a ||| encodeBytes b ((List.range n).map (lane d)) := by
  obtain ⟨k, rfl⟩ := Nat.exists_eq_add_of_le hle
  rw [List.range_add, List.map_append, encodeBytes_append,
    BitVec.or_comm (encodeBytes b ((List.range m).map (lane d))), ← BitVec.or_assoc,
    BitVec.or_assoc _ _ (encodeBytes _ _), BitVec.or_self]

/-- ENCB is idempotent in ACC. -/
theorem acc_scanIntoAcc_repeated (n : Nat) (d : Mask) (s : State) :
    (scanIntoAcc n d (scanIntoAcc n d s)).acc = (scanIntoAcc n d s).acc := by
  rw [acc_scanIntoAcc n d (scanIntoAcc n d s), build_scanIntoAcc, acc_scanIntoAcc n d s]
  exact encodeBytes_or_firstLanes s.build d _ _ (acceptedLanes_repeated_le n d s) s.acc

/-! ### Repeating a command (R49) -/

/-- XOR whose destination is both of its sources, or neither, is idempotent (R123). -/
theorem exec_xor_repeated {rd ra rb : MReg} (hForm : rd = ra ↔ rd = rb) {s t : State}
    (h : exec (.xor rd ra rb) s = .next t) : exec (.xor rd ra rb) t = .next t := by
  cases h
  refine congrArg Host.Outcome.next (writeAlgebra_repeated ?_)
  by_cases hra : rd = ra
  · obtain rfl := hra
    obtain rfl := hForm.1 rfl
    simp
  · have hrb : rd ≠ rb := fun hrb => hra (hForm.2 hrb)
    simp [Ne.symm hra, hrb.symm]

/-- NOT from another register is idempotent (R124). -/
theorem exec_not_repeated {rd ra : MReg} (hForm : rd ≠ ra) {s t : State} (h : exec (.not rd ra) s = .next t) :
    exec (.not rd ra) t = .next t := by
  cases h
  refine congrArg Host.Outcome.next (writeAlgebra_repeated ?_)
  simp [hForm.symm]

/-- ANDN is idempotent unless its destination is its second source only (R125). -/
theorem exec_andn_repeated {rd ra rb : MReg} (hForm : rd = rb → rd = ra) {s t : State}
    (h : exec (.andn rd ra rb) s = .next t) : exec (.andn rd ra rb) t = .next t := by
  cases h
  refine congrArg Host.Outcome.next (writeAlgebra_repeated ?_)
  by_cases hrb : rd = rb
  · obtain rfl := hrb
    obtain rfl := hForm rfl
    simp
  · by_cases hra : rd = ra
    · obtain rfl := hra
      simp [Ne.symm hrb, BitVec.and_assoc]
    · simp [Ne.symm hra, Ne.symm hrb]

/-- An operation that absorbs its own result is idempotent in every form, whichever sources are the destination. -/
theorem writeAlgebra_repeated_of_absorbs {f : Mask → Mask → Mask} (hLeft : ∀ a b, f (f a b) b = f a b)
    (hRight : ∀ a b, f a (f a b) = f a b) (hBoth : ∀ a, f a a = a) (rd ra rb : MReg) (s : State) :
    writeAlgebra f rd ra rb (writeAlgebra f rd ra rb s) = writeAlgebra f rd ra rb s := by
  apply writeAlgebra_repeated
  by_cases hra : ra = rd <;> by_cases hrb : rb = rd <;> simp [hra, hrb, hLeft, hRight, hBoth]

/-- AND and OR are idempotent in every form (R121, R122). -/
theorem exec_and_repeated {rd ra rb : MReg} {s t : State} (h : exec (.and rd ra rb) s = .next t) :
    exec (.and rd ra rb) t = .next t := by
  cases h
  refine congrArg Host.Outcome.next (writeAlgebra_repeated_of_absorbs ?_ ?_ (fun _ => BitVec.and_self) rd ra rb s)
  · simp [BitVec.and_assoc]
  · simp [← BitVec.and_assoc]

theorem exec_or_repeated {rd ra rb : MReg} {s t : State} (h : exec (.or rd ra rb) s = .next t) :
    exec (.or rd ra rb) t = .next t := by
  cases h
  refine congrArg Host.Outcome.next (writeAlgebra_repeated_of_absorbs ?_ ?_ (fun _ => BitVec.or_self) rd ra rb s)
  · simp [BitVec.or_assoc]
  · simp [← BitVec.or_assoc]

/-- Every command but ENCB is idempotent, save the forms of XOR, NOT and ANDN that read back what they wrote. -/
theorem exec_repeated {i : Instr} {s t : State} (hEncb : ∀ n d, i ≠ .encb n d)
    (hXor : ∀ rd ra rb : MReg, i = .xor rd ra rb → (rd = ra ↔ rd = rb))
    (hNot : ∀ rd ra : MReg, i = .not rd ra → rd ≠ ra)
    (hAndn : ∀ rd ra rb : MReg, i = .andn rd ra rb → rd = rb → rd = ra) (h : exec i s = .next t) :
    exec i t = .next t := by
  cases i with
  | encb n d => exact absurd rfl (hEncb n d)
  | and rd ra rb => exact exec_and_repeated h
  | or rd ra rb => exact exec_or_repeated h
  | xor rd ra rb => exact exec_xor_repeated (hXor rd ra rb rfl) h
  | not rd ra => exact exec_not_repeated (hNot rd ra rfl) h
  | andn rd ra rb => exact exec_andn_repeated (hAndn rd ra rb rfl) h
  | encst rd =>
    cases h
    exact congrArg Host.Outcome.next (respond_writeM_repeated rd s.acc s)
  | ldm rd d =>
    cases h
    exact congrArg Host.Outcome.next (respond_writeM_repeated rd d s)
  | rddec k =>
    cases (exec_rddec k s).symm.trans h
    rw [exec_rddec]
    split <;> rfl
  | rdsr n =>
    cases (exec_rdsr n s).symm.trans h
    rw [exec_rdsr]
    cases specialReg? n with
    | none => rfl
    | some r => cases r <;> rfl
  | rdm ra =>
    cases h
    cases ra <;> rfl
  | card ra =>
    cases h
    cases ra <;> rfl
  | dec ra =>
    cases h
    cases ra <;> rfl
  | nop | encclr | clrstat | reserved bits =>
    cases h
    rfl

/-! ### The forms that read back what they wrote -/

section ReadBack

variable {rd q : MReg} (s : State)

/-- NOT in place, repeated, restores the register (R124). -/
theorem exec_not_in_place_twice (rd : MReg) : ∃ t u : State, exec (.not rd rd) s = .next t
    ∧ exec (.not rd rd) t = .next u ∧ readM rd t = ~~~(readM rd s) ∧ readM rd u = readM rd s :=
  ⟨_, _, rfl, rfl, by simp, by simp⟩

variable (hNe : rd ≠ q)
include hNe

/-- XOR with the destination as one source, repeated, restores the register (R123). -/
theorem exec_xor_first_source_twice : ∃ t u : State, exec (.xor rd rd q) s = .next t
    ∧ exec (.xor rd rd q) t = .next u ∧ readM rd u = readM rd s :=
  ⟨_, _, rfl, rfl, by simp [hNe.symm]⟩

theorem exec_xor_second_source_twice : ∃ t u : State, exec (.xor rd q rd) s = .next t
    ∧ exec (.xor rd q rd) t = .next u ∧ readM rd u = readM rd s :=
  ⟨_, _, rfl, rfl, by simp [hNe.symm]⟩

/-- ANDN with the destination as second source gives the difference, and repeated the intersection (R125). -/
theorem exec_andn_second_source_twice : ∃ t u : State, exec (.andn rd q rd) s = .next t
    ∧ exec (.andn rd q rd) t = .next u
    ∧ readM rd t = readM q s &&& ~~~(readM rd s) ∧ readM rd u = readM q s &&& readM rd s := by
  have hTwice (a b : Mask) : a &&& ~~~(a &&& ~~~b) = a &&& b := by
    rw [BitVec.not_and, BitVec.not_not, BitVec.and_or_distrib_left, BitVec.and_not_self]
    exact BitVec.zero_or
  exact ⟨_, _, rfl, rfl, by simp, by simp [hNe.symm, hTwice]⟩

end ReadBack

/-- Settles O44: the idempotent commands by `exec_repeated`, the other forms each by its own rule. -/
theorem commandsWithAnUnreadDestinationAreIdempotent : Obligations.CommandsWithAnUnreadDestinationAreIdempotent := by
  unfold Obligations.CommandsWithAnUnreadDestinationAreIdempotent
  refine ⟨fun i s t => exec_repeated, fun rd q s hNe => ?_, fun rd s => exec_not_in_place_twice s rd,
    fun n d s t u hn ht hu => ?_⟩
  · exact ⟨exec_xor_first_source_twice s hNe, exec_xor_second_source_twice s hNe,
      exec_andn_second_source_twice s hNe⟩
  · have hLegal : ¬ 8#5 < n := BitVec.not_lt.2 hn
    rw [exec_encb, if_neg hLegal] at ht hu
    cases ht
    cases hu
    exact acc_scanIntoAcc_repeated n.toNat d s

/-- Refutes O43: NOT m0, m0 at reset leaves M[0] = ~0, and repeated gives 0 back (R124). -/
theorem not_everyCommandButEncbIsIdempotent : ¬ Obligations.EveryCommandButEncbIsIdempotent := by
  unfold Obligations.EveryCommandButEncbIsIdempotent
  intro h
  obtain ⟨t, u, ht, hu, hOnce, hTwice⟩ := exec_not_in_place_twice State.reset .m0
  cases hu.symm.trans (h (.not .m0 .m0) State.reset t (by simp) ht)
  exact absurd (hOnce.symm.trans hTwice) (by decide)

end Machine
end Sys2Proof
end

section
/-!
Runs of edges: a held command up to its acceptance (R52), an execution up to its end (R46), and from both the whole
transaction of a command and a session of them, against the command-level function (R43, R45, R46, R51).
-/

namespace Sys2Proof.Machine

/-! ### Runs, edge by edge -/

@[simp] theorem runEdges_zero (s : State) : runEdges 0 s = .next s := rfl

theorem runEdges_succ {n : Nat} {s t : State} (h : step s = .next t) : runEdges (n + 1) s = runEdges n t := by
  rw [runEdges, h]

/-- A run with one more edge at its end. -/
theorem runEdges_snoc {n : Nat} {s t : State} (h : runEdges n s = .next t) : runEdges (n + 1) s = step t := by
  rw [runEdges_add n 1 s t h, runEdges]
  obtain ⟨u, hu⟩ := step_answers t
  rw [hu]
  rfl

theorem nextPorts_of_cons {s : State} {p : PortIn} {ps : List PortIn} (h : s.host = p :: ps) : nextPorts s = p := by
  rw [nextPorts, h, List.headD_cons]

/-! ### A command held until it is accepted (R41, R52) -/

/-- An edge at which `c` is presented, and before which nothing else was, leaves nothing else presented. -/
theorem step_keeps_offer {s t : State} {c : Command} (hValid : (nextPorts s).cmdValid = true)
    (hCommand : presented (nextPorts s) = c) (hOffer : s.offer = .idle ∨ s.offer = .held c) (h : step s = .next t) :
    t.offer = .idle ∨ t.offer = .held c := by
  subst hCommand
  cases hReady : cmdReady (nextPorts s).rst s with
  | true =>
    cases (step_accept hValid hReady).symm.trans h
    exact .inl rfl
  | false => exact .inr ((step_not_ready hReady h).1.trans (offerAfter_held _ _ hValid hOffer))

theorem runEdges_keeps_offer {c : Command} {rest : List PortIn} (waits : List PortIn) (s t : State)
    (hHost : s.host = waits ++ rest) (hWaits : ∀ p ∈ waits, p.cmdValid = true ∧ presented p = c)
    (hOffer : s.offer = .idle ∨ s.offer = .held c) (h : runEdges waits.length s = .next t) :
    t.host = rest ∧ (t.offer = .idle ∨ t.offer = .held c) := by
  induction waits generalizing s with
  | nil =>
    cases h
    exact ⟨hHost, hOffer⟩
  | cons p ps ih =>
    obtain ⟨u, hu⟩ := step_answers s
    obtain ⟨hValid, hCommand⟩ := hWaits p (by simp)
    have hPorts : nextPorts s = p := nextPorts_of_cons hHost
    rw [← hPorts] at hValid hCommand
    refine ih u ?_ (fun q hq => hWaits q (by simp [hq])) (step_keeps_offer hValid hCommand hOffer hu) ?_
    · rw [step_host hu, hHost]
      rfl
    · rwa [← runEdges_succ hu]

/-- Settles O58: the edge without an offer leaves none, the waiting edges none but the held one, which is accepted. -/
theorem heldCommandIsTheOneAccepted : Obligations.HeldCommandIsTheOneAccepted := by
  unfold Obligations.HeldCommandIsTheOneAccepted
  intro c first last waits rest s t hHost hFirst hWaits hValid hCommand hRun hReady
  obtain ⟨s₁, h₁⟩ := step_answers s
  have hNone : s₁.offer = .idle := by
    refine (offerFollowsThePorts s s₁ h₁).1 ?_
    rw [nextPorts_of_cons hHost, hFirst]
  have hHost₁ : s₁.host = waits ++ last :: rest := by
    rw [step_host h₁, hHost]
    rfl
  rw [runEdges_succ h₁] at hRun
  obtain ⟨hHostT, hOffer⟩ := runEdges_keeps_offer waits s₁ t hHost₁ hWaits (.inl hNone) hRun
  have hPorts : nextPorts t = last := nextPorts_of_cons hHostT
  subst hPorts hCommand
  refine ⟨_, step_accept hValid hReady, ?_, rfl, rfl⟩
  rw [← acceptedCommand_held (nextPorts t) t hValid hOffer]
  rfl

/-! ### An execution until it ends (R46) -/

/-- After `n` edges of an execution that goes on, only the schedule, the host's offer and the countdown have moved. -/
theorem runEdges_wait {c : Command} (n wait : Nat) (s : State) (hBusy : s.inflight = some ⟨c, wait⟩) (hle : n ≤ wait)
    (hRst : ∀ p ∈ s.host.take n, p.rst = false) :
    ∃ o, runEdges n s
      = .next { s with inflight := some ⟨c, wait - n⟩, host := s.host.drop n, offer := o } := by
  induction n generalizing s wait with
  | zero =>
    refine ⟨s.offer, ?_⟩
    simp [← hBusy]
  | succ n ih =>
    obtain ⟨w, rfl⟩ : ∃ w, wait = w + 1 := ⟨wait - 1, by omega⟩
    have hRstNow : (nextPorts s).rst = false := by
      unfold nextPorts
      cases hHost : s.host with
      | nil => rfl
      | cons p ps => exact hRst p (by simp [hHost])
    have hStep := step_wait hRstNow hBusy
    have hRstLater : ∀ p ∈ s.host.tail.take n, p.rst = false := by
      intro p hp
      rw [← Nat.add_sub_cancel n 1, ← List.tail_take_eq_take_tail] at hp
      exact hRst p (List.mem_of_mem_tail hp)
    obtain ⟨o, ho⟩ := ih w (waitEdge (nextPorts s) c w (popPorts s)) rfl (Nat.le_of_succ_le_succ hle) hRstLater
    refine ⟨o, ?_⟩
    rw [runEdges_succ hStep, ho, Nat.add_sub_add_right]
    simp [waitEdge, popPorts]

/-- Settles O50: up to the end of the execution the run is `runEdges_wait`'s. -/
theorem executionIsInvisibleUntilItEnds : Obligations.ExecutionIsInvisibleUntilItEnds := by
  unfold Obligations.ExecutionIsInvisibleUntilItEnds
  intro n wait c s hBusy hle hRst
  obtain ⟨o, h⟩ := runEdges_wait n wait s hBusy hle fun p hp => hRst p (List.mem_of_mem_take hp)
  exact ⟨_, h, rfl, rfl, rfl, rfl⟩

/-! ### The command-level function reads the registers and the build only -/

theorem runCommand_next {c : Command} {s u : State} (h : runCommand c s = .next u) :
    u.rsp.pending = true ∧ KeepsOutside s u := by
  obtain ⟨v, hv, hAnswer⟩ := runCommand_answers c s
  cases h.symm.trans hv
  exact hAnswer

/-- `s` with what stands beside R20's registers, RSP and the build taken from `e`: the command in flight, the host's
side, the count of free values. -/
def State.beside (s e : State) : State :=
  { s with inflight := e.inflight, offer := e.offer, host := e.host, draws := e.draws }

/-- Two states with the same registers and build differ in RSP and in what stands beside them. -/
theorem eq_beside_of_registersOf {s t : State} (hRegs : registersOf t = registersOf s) (hBuild : t.build = s.build) :
    t = (setRsp t.rsp s).beside t := by
  cases s
  cases t
  simp only [registersOf, Registers.mk.injEq] at hRegs
  obtain ⟨rfl, rfl, rfl, rfl, rfl, rfl, rfl⟩ := hRegs
  subst hBuild
  rfl

theorem exec_beside {i : Instr} {s u : State} (r : Response) (e : State) (h : exec i s = .next u) :
    exec i ((setRsp r s).beside e) = .next (u.beside e) := by
  cases i with
  | encb n d =>
    cases (exec_encb n d s).symm.trans h
    rw [exec_encb]
    split <;> rfl
  | rddec k =>
    cases (exec_rddec k s).symm.trans h
    rw [exec_rddec]
    split <;> rfl
  | rdsr n =>
    cases (exec_rdsr n s).symm.trans h
    rw [exec_rdsr]
    cases specialReg? n with
    | none => rfl
    | some q => cases q <;> rfl
  | _ =>
    cases h
    rfl

theorem runCommand_beside {c : Command} {s u : State} (r : Response) (e : State) (h : runCommand c s = .next u) :
    runCommand c ((setRsp r s).beside e) = .next (u.beside e) := by
  unfold runCommand at h ⊢
  cases hDecode : decode c.op c.data with
  | ok i =>
    rw [hDecode] at h
    exact exec_beside r e h
  | error code =>
    rw [hDecode] at h
    cases h
    rfl

/-- From the same registers and build, a command leads to the same registers and response; beside them all stays. -/
theorem runCommand_congr {c : Command} {s t u : State} (hRegs : registersOf t = registersOf s)
    (hBuild : t.build = s.build) (h : runCommand c s = .next u) : runCommand c t = .next (u.beside t) := by
  have hBeside := runCommand_beside t.rsp t h
  rwa [← eq_beside_of_registersOf hRegs hBuild] at hBeside

/-! ### The transaction of one command (R43, R45, R46) -/

/-- The host presents `c` to the ready FBCU `s`, waits and takes the response, and goes on with `rest`; `u` is where
the command-level function leads. -/
structure Transaction (c : Command) (s u : State) (rest : List PortIn) : Prop where
  ready : Ready s
  host : s.host = commandSchedule c (executionEdges c s) ++ rest
  run : runCommand c s = .next u

/-- The state after a transaction: the function's, its response taken. -/
def transactionEnd (s u : State) (rest : List PortIn) : State :=
  (setRsp { u.rsp with pending := false } u).beside { s with host := rest, draws := s.draws + 1 }

theorem Ready.cmdReady {s : State} (h : Ready s) : cmdReady false s = true :=
  have ⟨hFree, hPending, _⟩ := h
  (cmdReady_iff false s).2 ⟨rfl, hFree, hPending⟩

theorem ready_transactionEnd {s : State} (h : Ready s) (u : State) (rest : List PortIn) :
    Ready (transactionEnd s u rest) :=
  have ⟨hFree, _, hOffer⟩ := h
  ⟨hFree, rfl, hOffer⟩

namespace Transaction

variable {c : Command} {s u : State} {rest : List PortIn} (h : Transaction c s u rest)
include h

/-- The schedule once the command is accepted. -/
theorem host_tail : s.host.tail = List.replicate (extraCyclesOf c s) idlePorts ++ idlePorts :: takePorts :: rest := by
  rw [h.host, commandSchedule, executionEdges, List.replicate_succ']
  simp

/-- Until its last edge the execution has moved nothing but the schedule, the offer and the countdown. -/
theorem runEdges_executing (k : Nat) (hk : k ≤ extraCyclesOf c s) :
    ∃ o, runEdges (k + 1) s = .next { s with
      inflight := some ⟨c, extraCyclesOf c s - k⟩, host := s.host.tail.drop k, offer := o, draws := s.draws + 1 } := by
  have hPorts : nextPorts s = offerPorts c := nextPorts_of_cons h.host
  have hAccept := step_accept (s := s) (by rw [hPorts]; rfl) (by rw [hPorts]; exact h.ready.cmdReady)
  have hCommand : acceptedCommand (nextPorts s) s = c := by
    obtain ⟨-, -, hOffer⟩ := h.ready
    rw [hPorts]
    exact acceptedCommand_held (offerPorts c) s rfl (.inl hOffer)
  have hBusy : (acceptEdge (nextPorts s) (popPorts s)).inflight = some ⟨c, extraCyclesOf c s⟩ := by
    rw [← hCommand]
    rfl
  have hIdle : ∀ p ∈ s.host.tail.take k, p.rst = false := by
    intro p hp
    rw [h.host_tail, List.take_append_of_le_length (by simpa using hk)] at hp
    rw [List.eq_of_mem_replicate (List.mem_of_mem_take hp)]
    rfl
  obtain ⟨o, ho⟩ := runEdges_wait k _ (acceptEdge (nextPorts s) (popPorts s)) hBusy hk hIdle
  exact ⟨o, (runEdges_succ hAccept).trans ho⟩

/-- The edge that ends the execution gives the function's registers and response. -/
theorem runEdges_executed : runEdges (executionEdges c s + 1) s
    = .next (u.beside { s with host := takePorts :: rest, draws := s.draws + 1 }) := by
  obtain ⟨o, ho⟩ := h.runEdges_executing (extraCyclesOf c s) le_rfl
  have hHost : s.host.tail.drop (extraCyclesOf c s) = idlePorts :: takePorts :: rest := by
    rw [h.host_tail]
    simp
  rw [Nat.sub_self, hHost] at ho
  rw [executionEdges, runEdges_snoc ho, step_due rfl rfl]
  refine Eq.trans (runCommand_congr (s := s) rfl rfl h.run) ?_
  obtain ⟨hFree, -, hOffer⟩ := h.ready
  simp only [State.beside, hFree, hOffer]
  rfl

/-- The last edge takes the response. -/
theorem runEdges_end : runEdges (executionEdges c s + 2) s = .next (transactionEnd s u rest) := by
  obtain ⟨hPending, -⟩ := runCommand_next h.run
  rw [runEdges_snoc h.runEdges_executed]
  obtain ⟨hFree, -, hOffer⟩ := h.ready
  refine Eq.trans (step_response rfl hFree hPending) ?_
  simp only [transactionEnd, State.beside, hOffer]
  rfl

/-- No response shows until the execution has ended, at least one edge after the acceptance (R45). -/
theorem invisible (k : Nat) (hk : k ≤ executionEdges c s) :
    ∃ t, runEdges k s = .next t ∧ t.rsp.pending = false ∧ registersOf t = registersOf s := by
  obtain ⟨-, hPending, -⟩ := h.ready
  cases k with
  | zero => exact ⟨s, rfl, hPending, rfl⟩
  | succ k =>
    obtain ⟨o, ho⟩ := h.runEdges_executing k (Nat.le_of_succ_le_succ hk)
    exact ⟨_, ho, hPending, rfl⟩

end Transaction

/-- Settles O53: the acceptance and the waiting edges, the edge that ends the execution, the edge of the response. -/
theorem commandTransactionRefinesTheFunction : Obligations.CommandTransactionRefinesTheFunction := by
  unfold Obligations.CommandTransactionRefinesTheFunction
  intro c s u rest hReady hHost hRun
  have h : Transaction c s u rest := ⟨hReady, hHost, hRun⟩
  obtain ⟨-, -, -, -, hBuild, -⟩ := runCommand_next hRun
  exact ⟨h.invisible, ⟨_, h.runEdges_executed, rfl⟩, _, h.runEdges_end, rfl, ready_transactionEnd hReady u rest, rfl,
    hBuild, rfl⟩

/-! ### A session of commands (R51) -/

theorem takenResponses_snoc {n : Nat} {s t : State} (h : runEdges n s = .next t) :
    takenResponses (n + 1) s = takenResponses n s ++ takenAt t := by
  obtain ⟨u, hu⟩ := step_answers t
  rw [takenResponses_add n 1 s t h, takenResponses_succ 0 t u hu, takenResponses_zero, List.append_nil]

/-- Over edges at which no response is pending none is taken. -/
theorem takenResponses_eq_nil (n : Nat) (s : State)
    (h : ∀ k < n, ∃ t, runEdges k s = .next t ∧ t.rsp.pending = false) : takenResponses n s = [] := by
  induction n with
  | zero => rfl
  | succ n ih =>
    obtain ⟨t, ht, hPending⟩ := h n (by omega)
    rw [takenResponses_snoc ht, ih fun k hk => h k (by omega), takenAt_of_not_pending t hPending, List.nil_append]

/-- The host takes exactly the command's response (R43). -/
theorem Transaction.takenResponses_eq {c : Command} {s u : State} {rest : List PortIn} (h : Transaction c s u rest) :
    takenResponses (executionEdges c s + 2) s = [(u.rsp.data, u.rsp.err)] := by
  have hNone : takenResponses (executionEdges c s + 1) s = [] :=
    takenResponses_eq_nil _ s fun k hk => by
      obtain ⟨t, ht, hPending, -⟩ := h.invisible k (by omega)
      exact ⟨t, ht, hPending⟩
  obtain ⟨hPending, -⟩ := runCommand_next h.run
  rw [takenResponses_snoc h.runEdges_executed, hNone, List.nil_append]
  simp [takenAt, nextPorts, outputs, rspValid, State.beside, takePorts, hPending]

theorem length_responsesOf (cs : List Command) (s : State) : (responsesOf cs s).length = cs.length := by
  induction cs generalizing s with
  | nil => rfl
  | cons c cs ih =>
    obtain ⟨t, ht, -⟩ := runCommand_answers c s
    rw [responsesOf_cons c cs s t ht, List.length_cons, List.length_cons, ih]

/-- `s` with `n` as its count of accepted commands, which the schedule of a session counts on from. -/
def State.withDraws (s : State) (n : Nat) : State := { s with draws := n }

theorem runCommand_withDraws {c : Command} {s u : State} (n : Nat) (h : runCommand c s = .next u) :
    runCommand c (s.withDraws n) = .next (u.withDraws n) := by
  obtain ⟨-, hFlight, hOffer, hHost, -, -⟩ := runCommand_next h
  rw [runCommand_congr (s := s) (t := s.withDraws n) rfl rfl h]
  simp [State.beside, State.withDraws, ← hFlight, ← hOffer, ← hHost]

/-- The schedule of a session: the first command's, and that of the rest from where it leads. -/
theorem sessionSchedule_cons (c : Command) (cs : List Command) (s t : State) (h : runCommand c s = .next t) :
    sessionSchedule (c :: cs) s
      = commandSchedule c (executionEdges c s) ++ sessionSchedule cs (t.withDraws (s.draws + 1)) := by
  rw [sessionSchedule, h]
  rfl

theorem length_commandSchedule (c : Command) (waits : Nat) : (commandSchedule c waits).length = waits + 2 := by
  simp [commandSchedule]

/-- The clocked machine `s` follows the command level `a`, which the responses and the composition start from: it has
the same registers and build, and its host keeps to the schedule of a session from there. -/
theorem session_refines (cs : List Command) (s a u : State) (rest : List PortIn) (hReady : Ready s)
    (hRegs : registersOf s = registersOf a) (hBuild : s.build = a.build)
    (hHost : s.host = sessionSchedule cs (a.withDraws s.draws) ++ rest) (hRun : runCommands cs a = .next u) :
    ∃ t, runEdges (sessionSchedule cs (a.withDraws s.draws)).length s = .next t
      ∧ takenResponses (sessionSchedule cs (a.withDraws s.draws)).length s = responsesOf cs a
      ∧ registersOf t = registersOf u ∧ Ready t ∧ t.host = rest ∧ t.build = s.build := by
  induction cs generalizing s a with
  | nil =>
    cases hRun
    exact ⟨s, rfl, rfl, hRegs, hReady, hHost, rfl⟩
  | cons c cs ih =>
    obtain ⟨v, hv, -, -, -, -, hBuildV, -⟩ := runCommand_answers c a
    have hRunCs : runCommands cs v = .next u := by
      rwa [runCommands, hv] at hRun
    have hEdges : executionEdges c (a.withDraws s.draws) = executionEdges c s :=
      congrArg (· + 1) (extraCyclesOf_congr c s _ hRegs.symm hBuild.symm rfl)
    have hSchedule : sessionSchedule (c :: cs) (a.withDraws s.draws)
        = commandSchedule c (executionEdges c s) ++ sessionSchedule cs (v.withDraws (s.draws + 1)) := by
      rw [sessionSchedule_cons c cs _ _ (runCommand_withDraws s.draws hv), hEdges]
      rfl
    rw [hSchedule, List.append_assoc] at hHost
    have h : Transaction c s (v.beside s) _ := ⟨hReady, hHost, runCommand_congr hRegs hBuild hv⟩
    obtain ⟨t, ht, hTaken, hRegsT, hReadyT, hHostT, hBuildT⟩ :=
      ih (transactionEnd s (v.beside s) (sessionSchedule cs (v.withDraws (s.draws + 1)) ++ rest)) v
        (ready_transactionEnd hReady _ _) rfl rfl rfl hRunCs
    rw [hSchedule, List.length_append, length_commandSchedule]
    refine ⟨t, (runEdges_add _ _ s _ h.runEdges_end).trans ht, ?_, hRegsT, hReadyT, hHostT, ?_⟩
    · rw [takenResponses_add _ _ s _ h.runEdges_end, h.takenResponses_eq, responsesOf_cons c cs a v hv]
      exact congrArg _ hTaken
    · exact hBuildT.trans (hBuildV.trans hBuild.symm)

/-- Settles O54: the machine follows itself as the command level. -/
theorem sessionRefinesTheComposition : Obligations.SessionRefinesTheComposition := by
  unfold Obligations.SessionRefinesTheComposition
  intro cs s u rest hReady hHost hRun
  obtain ⟨t, hEdges, hTaken, hEnd⟩ := session_refines cs s s u rest hReady rfl rfl hHost hRun
  exact ⟨t, hEdges, hTaken, length_responsesOf cs s, hEnd⟩

end Sys2Proof.Machine
end

section
/-!
The command word (R60 to R68): its fields, the rows of the opcode map, and that the decoder and the encoder invert each
other.
-/

namespace Sys2Proof

/-! ### Fields (R60) -/

section Fields

variable (opc : BitVec 5) (rd ra rb : BitVec 2) (imm : BitVec 5)

@[simp] theorem opcOf_assembleWord : opcOf (assembleWord opc rd ra rb imm) = opc := by
  ext j hj
  interval_cases j <;> simp [assembleWord, opcOf]

@[simp] theorem rdOf_assembleWord : rdOf (assembleWord opc rd ra rb imm) = rd := by
  ext j hj
  interval_cases j <;> simp [assembleWord, rdOf]

@[simp] theorem raOf_assembleWord : raOf (assembleWord opc rd ra rb imm) = ra := by
  ext j hj
  interval_cases j <;> simp [assembleWord, raOf]

@[simp] theorem rbOf_assembleWord : rbOf (assembleWord opc rd ra rb imm) = rb := by
  ext j hj
  interval_cases j <;> simp [assembleWord, rbOf]

@[simp] theorem immOf_assembleWord : immOf (assembleWord opc rd ra rb imm) = imm := by
  ext j hj
  interval_cases j <;> simp [assembleWord, immOf]

end Fields

/-- A word is assembled from its own fields. -/
theorem assembleWord_fields (w : CmdWord) : assembleWord (opcOf w) (rdOf w) (raOf w) (rbOf w) (immOf w) = w := by
  ext j hj
  interval_cases j <;> simp [assembleWord, opcOf, rdOf, raOf, rbOf, immOf]

@[simp] theorem regIndex_regOfIndex (n : BitVec 2) : regIndex (regOfIndex n) = n := by
  revert n
  decide

@[simp] theorem regOfIndex_regIndex (r : MReg) : regOfIndex (regIndex r) = r := by
  cases r <;> rfl

/-- Bit 15 is the top bit of OPC (R65). -/
theorem getLsbD_opcOf_four (w : CmdWord) : (opcOf w).getLsbD 4 = w.getLsbD 15 := by
  simp [opcOf]

/-! ### The opcode map (R62) -/

/-- A row fixes all of OPC: its mask has the field's five bits, its pattern the row's OPC there. -/
theorem opcOf_of_match {row : OpcodeRow} (hRow : row ∈ opcodeMap) {w : CmdWord}
    (hMatch : w &&& row.mask = row.pattern) : opcOf w = row.opc := by
  have hOpc : ∀ r ∈ opcodeMap, opcOf r.mask = BitVec.allOnes 5 ∧ opcOf r.pattern = r.opc := by decide
  obtain ⟨hMask, hPattern⟩ := hOpc row hRow
  calc opcOf w = opcOf w &&& opcOf row.mask := by rw [hMask, BitVec.and_allOnes]
    _ = opcOf (w &&& row.mask) := BitVec.extractLsb'_and.symm
    _ = row.opc := by rw [hMatch, hPattern]

theorem row_eq_of_opc_eq : ∀ r ∈ opcodeMap, ∀ q ∈ opcodeMap, r.opc = q.opc → r = q := by decide

/-- The defined opcodes are those below 0x10 (R62, R65). -/
theorem getLsbD_opc_of_mem : ∀ r ∈ opcodeMap, r.opc.getLsbD 4 = false := by decide

theorem opcodeRow?_eq_none_iff (opc : BitVec 5) : opcodeRow? opc = none ↔ opc.getLsbD 4 = true := by
  revert opc
  decide

theorem opcodeRow?_opc_of_mem : ∀ row ∈ opcodeMap, opcodeRow? row.opc = some row := by decide

/-- Settles O4: a row matches only words of its OPC, and no two rows have the same, none one with the top bit set. -/
theorem opcodeRowsDoNotOverlap : Obligations.OpcodeRowsDoNotOverlap := by
  unfold Obligations.OpcodeRowsDoNotOverlap
  refine fun w => ⟨fun r hr q hq hwr hwq => ?_, fun hTop r hr hwr => ?_⟩
  · exact row_eq_of_opc_eq r hr q hq ((opcOf_of_match hr hwr).symm.trans (opcOf_of_match hq hwq))
  · rw [← getLsbD_opcOf_four, opcOf_of_match hr hwr, getLsbD_opc_of_mem r hr] at hTop
    cases hTop

/-! ### What a word decodes to (R67) -/

/-- A word that a row matches is decoded by that row. -/
theorem decode_of_match {row : OpcodeRow} (hRow : row ∈ opcodeMap) {w : CmdWord}
    (hMatch : w &&& row.mask = row.pattern) (d : Mask) : decode w d = commandOf row.operation w d := by
  simp [decode, opcOf_of_match hRow hMatch, opcodeRow?_opc_of_mem row hRow, hMatch]

/-- A word with bit 15 set decodes to the reserved row (R65, log entry 11). -/
theorem decode_of_bit15 {w : CmdWord} (h : w.getLsbD 15 = true) (d : Mask) :
    decode w d = .ok (.reserved (w.extractLsb' 0 15)) := by
  have hNone : opcodeRow? (opcOf w) = none := (opcodeRow?_eq_none_iff _).2 ((getLsbD_opcOf_four w).trans h)
  rw [decode, hNone]

/-- What decodes to an instruction either has bit 15 set or is matched by a row, whose command it is. -/
theorem decode_eq_ok {w : CmdWord} {d : Mask} {i : Instr} (h : decode w d = .ok i) :
    (w.getLsbD 15 = true ∧ i = .reserved (w.extractLsb' 0 15))
      ∨ ∃ row ∈ opcodeMap, w &&& row.mask = row.pattern ∧ commandOf row.operation w d = .ok i := by
  unfold decode at h
  split at h
  case h_1 hNone =>
    cases h
    exact .inl ⟨(getLsbD_opcOf_four w).symm.trans ((opcodeRow?_eq_none_iff _).1 hNone), rfl⟩
  case h_2 row hSome =>
    split at h
    case isTrue => cases h
    case isFalse hMatch => exact .inr ⟨row, List.mem_of_find?_eq_some hSome, not_not.1 hMatch, h⟩

/-! ### Decoding what was encoded (R68) -/

/-- The operation of an instruction; none for the reserved row, which is in no row of R62's map. -/
def Instr.operation? (i : Instr) : Option Operation :=
  match i with
  | .nop => some .nop
  | .encclr => some .encclr
  | .encb _ _ => some .encb
  | .encst _ => some .encst
  | .ldm _ _ => some .ldm
  | .rdm _ => some .rdm
  | .and _ _ _ => some .and
  | .or _ _ _ => some .or
  | .xor _ _ _ => some .xor
  | .not _ _ => some .not
  | .andn _ _ _ => some .andn
  | .card _ => some .card
  | .dec _ => some .dec
  | .rddec _ => some .rddec
  | .rdsr _ => some .rdsr
  | .clrstat => some .clrstat
  | .reserved _ => none

theorem eq_reserved_of_operation?_eq_none {i : Instr} (h : i.operation? = none) : ∃ bits, i = .reserved bits := by
  cases i with
  | reserved bits => exact ⟨bits, rfl⟩
  | _ => cases h

/-- An instruction's row of the opcode table is its operation's row of R62's map. -/
theorem row_mem_opcodeMap {i : Instr} {o : Operation} (h : i.operation? = some o) :
    ∃ opc, ⟨o, opc, (Laws.MatchesRow.row i).1, (Laws.MatchesRow.row i).2⟩ ∈ opcodeMap := by
  cases i <;> cases h <;> simp [Laws.MatchesRow.row, opcodeMap]

/-- Every instruction's word meets its row. -/
theorem encodeWord_matches (i : Instr) : encodeWord i &&& (Laws.MatchesRow.row i).2 = (Laws.MatchesRow.row i).1 :=
  match i with
  | .nop => Laws.MatchesRow.nop
  | .encclr => Laws.MatchesRow.encclr
  | .encb n d => Laws.MatchesRow.encb n d
  | .encst rd => Laws.MatchesRow.encst rd
  | .ldm rd d => Laws.MatchesRow.ldm rd d
  | .rdm ra => Laws.MatchesRow.rdm ra
  | .and rd ra rb => Laws.MatchesRow.and rd ra rb
  | .or rd ra rb => Laws.MatchesRow.or rd ra rb
  | .xor rd ra rb => Laws.MatchesRow.xor rd ra rb
  | .not rd ra => Laws.MatchesRow.not rd ra
  | .andn rd ra rb => Laws.MatchesRow.andn rd ra rb
  | .card ra => Laws.MatchesRow.card ra
  | .dec ra => Laws.MatchesRow.dec ra
  | .rddec k => Laws.MatchesRow.rddec k
  | .rdsr s => Laws.MatchesRow.rdsr s
  | .clrstat => Laws.MatchesRow.clrstat
  | .reserved bits => Laws.MatchesRow.reserved bits

/-- An operation reads its own operands back out of the word, where they are in range. -/
theorem commandOf_encodeWord {i : Instr} {o : Operation} (h : i.operation? = some o) (hWf : i.WellFormed) :
    commandOf o (encodeWord i) (encodeData i) = .ok i := by
  cases i with
  | encb n | rddec n | rdsr n =>
    cases h
    have hRange := BitVec.not_lt.2 (of_decide_eq_true hWf)
    simp only [commandOf, encodeWord, encodeData, immOf_assembleWord, if_neg hRange]
  | reserved bits => cases h
  | _ =>
    cases h
    simp [commandOf, encodeWord, encodeData]

/-- The reserved row's word has bit 15 set over the other bits. -/
theorem getLsbD_encodeWord_reserved (bits : BitVec 15) : (encodeWord (.reserved bits)).getLsbD 15 = true := by
  simp [encodeWord]

theorem extractLsb'_encodeWord_reserved (bits : BitVec 15) : (encodeWord (.reserved bits)).extractLsb' 0 15 = bits := by
  ext j hj
  interval_cases j <;> simp [encodeWord]

/-- Settles O2: an instruction's word is decoded by its row, which reads its operands back. -/
theorem decodeOfEncodeIsTheInstruction : Obligations.DecodeOfEncodeIsTheInstruction := by
  unfold Obligations.DecodeOfEncodeIsTheInstruction
  intro i hWf
  show decode (encodeWord i) (encodeData i) = .ok i
  cases hOp : i.operation? with
  | some o =>
    obtain ⟨opc, hRow⟩ := row_mem_opcodeMap hOp
    rw [decode_of_match hRow (encodeWord_matches i)]
    exact commandOf_encodeWord hOp hWf
  | none =>
    obtain ⟨bits, rfl⟩ := eq_reserved_of_operation?_eq_none hOp
    rw [decode_of_bit15 (getLsbD_encodeWord_reserved bits), extractLsb'_encodeWord_reserved]

/-! ### Encoding what was decoded (R63, R66) -/

/-- A field that lies in the mask of a row is one the row's operation does not use, and is 0 in a word that the row
matches (R63). -/
theorem unusedFields_eq_zero {row : OpcodeRow} (hRow : row ∈ opcodeMap) {w : CmdWord}
    (hMatch : w &&& row.mask = row.pattern) :
    (rdOf row.mask = BitVec.allOnes 2 → rdOf w = 0) ∧ (raOf row.mask = BitVec.allOnes 2 → raOf w = 0)
      ∧ (rbOf row.mask = BitVec.allOnes 2 → rbOf w = 0) ∧ (immOf row.mask = BitVec.allOnes 5 → immOf w = 0) := by
  have hZero : ∀ r ∈ opcodeMap, rdOf r.pattern = 0 ∧ raOf r.pattern = 0 ∧ rbOf r.pattern = 0 ∧ immOf r.pattern = 0 := by
    decide
  have hFields := hZero row hRow
  simp only [← hMatch, rdOf, raOf, rbOf, immOf, BitVec.extractLsb'_and] at hFields ⊢
  obtain ⟨hRd, hRa, hRb, hImm⟩ := hFields
  refine ⟨fun h => ?_, fun h => ?_, fun h => ?_, fun h => ?_⟩
  · rwa [h, BitVec.and_allOnes] at hRd
  · rwa [h, BitVec.and_allOnes] at hRa
  · rwa [h, BitVec.and_allOnes] at hRb
  · rwa [h, BitVec.and_allOnes] at hImm

/-- A word matched by a row is the word of the command the row makes of it: the command's operands are the fields its
operation uses, and the others are 0. -/
theorem encodeWord_of_commandOf {row : OpcodeRow} (hRow : row ∈ opcodeMap) {w : CmdWord} {d : Mask} {i : Instr}
    (hMatch : w &&& row.mask = row.pattern) (h : commandOf row.operation w d = .ok i) : encodeWord i = w := by
  have hOpc := opcOf_of_match hRow hMatch
  obtain ⟨hRd, hRa, hRb, hImm⟩ := unusedFields_eq_zero hRow hMatch
  rw [← assembleWord_fields w]
  obtain ⟨o, opc, pattern, mask⟩ := row
  cases o
  all_goals
    simp only [opcodeMap, List.mem_cons, OpcodeRow.mk.injEq, reduceCtorEq, false_and, true_and, false_or, or_false,
      List.not_mem_nil] at hRow
    obtain ⟨rfl, rfl, rfl⟩ := hRow
  case encb | rddec | rdsr =>
    simp only [commandOf] at h
    split at h
    case isTrue => cases h
    case isFalse =>
      cases h
      simp +decide [encodeWord, hOpc, hRd, hRa, hRb]
  all_goals
    cases h
    simp +decide [encodeWord, hOpc, hRd, hRa, hRb, hImm]

theorem encodeWord_reserved_of_bit15 {w : CmdWord} (h : w.getLsbD 15 = true) :
    encodeWord (.reserved (w.extractLsb' 0 15)) = w := by
  rw [BitVec.getLsbD_eq_getElem (by decide)] at h
  ext j hj
  interval_cases j <;> simp [encodeWord, h]

theorem encodeWord_of_decode {w : CmdWord} {d : Mask} {i : Instr} (h : decode w d = .ok i) : encodeWord i = w := by
  obtain ⟨hTop, rfl⟩ | ⟨row, hRow, hMatch, hCommand⟩ := decode_eq_ok h
  · exact encodeWord_reserved_of_bit15 hTop
  · exact encodeWord_of_commandOf hRow hMatch hCommand

/-! ### The data operand (R70) -/

/-- The command with another data operand, if it has one. -/
def Instr.withData (i : Instr) (d : Mask) : Instr :=
  match i with
  | .encb n _ => .encb n d
  | .ldm rd _ => .ldm rd d
  | i => i

/-- An instruction carries the data operand or has none. -/
theorem encodeData_withData_or (i : Instr) (d : Mask) : encodeData (i.withData d) = d ∨ ∀ d', i.withData d' = i := by
  cases i with
  | encb | ldm => exact .inl rfl
  | _ => exact .inr fun _ => rfl

/-- Decoding with other data gives the same error, or the same command with the other data. -/
theorem decode_withData (w : CmdWord) (d d' : Mask) : decode w d' = (decode w d).map (·.withData d') := by
  unfold decode
  split
  case h_1 => rfl
  case h_2 row _ =>
    split
    case isTrue => rfl
    case isFalse =>
      cases row.operation with
      | encb | rddec | rdsr =>
        simp only [commandOf]
        split <;> rfl
      | _ => rfl

/-- Settles O3: the word by `encodeWord_of_decode`; decoding with the data given again gives the same instruction. -/
theorem decodedWordIsItsEncoding : Obligations.DecodedWordIsItsEncoding := by
  unfold Obligations.DecodedWordIsItsEncoding
  intro w d i h
  have hOther (d' : Mask) : decode w d' = .ok (i.withData d') := by
    rw [decode_withData w d, h]
    rfl
  have hSame : i.withData d = i := Except.ok.inj ((hOther d).symm.trans h)
  refine ⟨wellFormed_of_decode h, encodeWord_of_decode h, ?_⟩
  obtain hData | hNone := encodeData_withData_or i d
  · exact .inl (hSame ▸ hData)
  · exact .inr fun d' => (hOther d').trans (congrArg _ (hNone d'))

/-- The error of a word is read off the word alone (R70). -/
theorem errorOf_data (w : CmdWord) (d d' : Mask) : errorOf w d = errorOf w d' := by
  unfold errorOf
  rw [decode_withData w d d']
  cases decode w d with
  | error e => rfl
  | ok i => cases i <;> rfl

/-- Words of the other opcodes decode the same whatever the data (R70). -/
theorem decode_data {w : CmdWord} (hEncb : opcOf w ≠ 2) (hLdm : opcOf w ≠ 4) (d d' : Mask) :
    decode w d = decode w d' := by
  rw [decode_withData w d d']
  cases h : decode w d with
  | error e => rfl
  | ok i =>
    have hWord : encodeWord i = w := encodeWord_of_decode h
    cases i with
    | encb n data => exact absurd (hWord ▸ opcOf_assembleWord ..) hEncb
    | ldm rd data => exact absurd (hWord ▸ opcOf_assembleWord ..) hLdm
    | _ => rfl

namespace Machine

/-- Settles O6: both clauses by the decoder alone. -/
theorem unusedDataOperandHasNoEffect : Obligations.UnusedDataOperandHasNoEffect := by
  unfold Obligations.UnusedDataOperandHasNoEffect
  refine fun w d d' => ⟨errorOf_data w d d', fun hEncb hLdm s => ?_⟩
  simp only [runCommand, decode_data hEncb hLdm d d']

/-- Settles O31: the word by its top bit, the execution as an error raised. -/
theorem reservedOpcodesRaiseIllop : Obligations.ReservedOpcodesRaiseIllop := by
  unfold Obligations.ReservedOpcodesRaiseIllop
  refine ⟨fun w d hTop => ⟨decode_of_bit15 hTop d, ?_⟩, fun bits s => ⟨raiseError .illop s, rfl, ?_⟩⟩
  · rw [errorOf, decode_of_bit15 hTop d]
  · exact ⟨rfl, rfl, rfl, fun r _ => readM_raiseError s r .illop, ⟨rfl, rfl⟩, rfl, ⟨rfl, rfl⟩, rfl, rfl, rfl, rfl, rfl⟩

/-- Settles O33: the range checks of the three executions. -/
theorem outOfRangeImmediatesRaiseRange : Obligations.OutOfRangeImmediatesRaiseRange := by
  unfold Obligations.OutOfRangeImmediatesRaiseRange
  refine fun n d s => ⟨fun h => ?_, fun h => ?_, fun h => ?_⟩
  · exact (exec_encb n d s).trans (congrArg _ (if_pos h))
  · exact (exec_rddec n s).trans (congrArg _ (if_pos h))
  · rw [exec_rdsr, (specialReg?_eq_none n).2 h]

end Machine

end Sys2Proof
end

section
/-!
The pseudo-instructions (R72): their expansions, and what ENCB commands in sequence leave in the encoder (R84, R86).
-/

namespace Sys2Proof.Machine

/-! ### ENCS as ENCB commands (R72) -/

/-- The count and the data operand of the c-th ENCB of ENCS. -/
def chunkOperands (s : List Byte) (c : Nat) : BitVec 5 × Mask :=
  let n := min 8 (s.length - 8 * c)
  (BitVec.ofNat 5 n, packLanes fun j => if j < n then s.getD (8 * c + j) 0 else 0)

theorem encsChunk_eq_encb (s : List Byte) (c : Nat) :
    encsChunk s c = .encb (chunkOperands s c).1 (chunkOperands s c).2 := rfl

theorem toNat_chunkCount (s : List Byte) (c : Nat) : (chunkOperands s c).1.toNat = min 8 (s.length - 8 * c) := by
  simp only [chunkOperands, BitVec.toNat_ofNat]
  omega

theorem lane_chunkData (s : List Byte) (c j : Nat) (hj : j < 8) : lane (chunkOperands s c).2 j
    = if j < (chunkOperands s c).1.toNat then s.getD (8 * c + j) 0 else 0 := by
  rw [toNat_chunkCount, chunkOperands, lane_packLanes _ j hj]

/-- The counts and data operands of all ENCB commands of ENCS. -/
def encsOperands (s : List Byte) : List (BitVec 5 × Mask) := (List.range ((s.length + 7) / 8)).map (chunkOperands s)

theorem encsCommands_eq_encbs (s : List Byte) : encsCommands s = encbs (encsOperands s) := by
  rw [encsCommands, encbs, encsOperands, List.map_map]
  rfl

theorem encsOperands_legal (s : List Byte) : ∀ p ∈ encsOperands s, p.1 ≤ 8 := by
  intro p hp
  obtain ⟨c, -, rfl⟩ := List.mem_map.1 hp
  rw [BitVec.le_def, toNat_chunkCount]
  exact Nat.min_le_left ..

/-- The counted lanes of chunk `c` are the bytes of the string from `8c` on, eight of them or what is left. -/
theorem countedLanes_chunk (s : List Byte) (c : Nat) :
    (List.range (chunkOperands s c).1.toNat).map (lane (chunkOperands s c).2) = (s.drop (8 * c)).take 8 := by
  have hCount := toNat_chunkCount s c
  apply List.ext_getElem
  · simp [hCount]
  · intro j hj _
    simp only [List.length_map, List.length_range] at hj
    have hByte : 8 * c + j < s.length := by omega
    rw [List.getElem_map, List.getElem_range, lane_chunkData s c j (by omega), if_pos hj]
    simp [hByte]

/-- The first `m` chunks, joined, are the first `8m` bytes. -/
theorem flatMap_chunks (s : List Byte) (m : Nat) :
    (List.range m).flatMap (fun c => (s.drop (8 * c)).take 8) = s.take (8 * m) := by
  induction m with
  | zero => rfl
  | succ m ih => rw [List.range_succ, List.flatMap_append, ih, List.flatMap_singleton, Nat.mul_succ, List.take_add]

/-- The ENCB commands of ENCS offer exactly the string (R72, R84). -/
theorem streamOf_encsOperands (s : List Byte) : streamOf (encsOperands s) = s := by
  have hAll : s.length ≤ 8 * ((s.length + 7) / 8) := by omega
  simp only [streamOf, encsOperands, List.flatMap_map, countedLanes_chunk]
  rw [flatMap_chunks, List.take_of_length_le hAll]

/-- Settles O55: the expansions as they are written, MOV and CLR by what OR and XOR write, the chunks lane by lane. -/
theorem pseudoInstructionsExpandAsListed : Obligations.PseudoInstructionsExpandAsListed := by
  unfold Obligations.PseudoInstructionsExpandAsListed
  refine ⟨fun rd ra rb => ⟨rfl, rfl, rfl, rfl, rfl, rfl, rfl⟩, fun rd ra s => ?copies, fun rd s => rfl,
    fun s => ⟨?count, fun c hc => ?chunk⟩⟩
  case copies => exact ⟨_, _, rfl, by simp, rfl, by simp⟩
  case count => simp [expandLine, encsCommands]
  case chunk =>
    refine ⟨(chunkOperands s c).1, (chunkOperands s c).2, ?_, toNat_chunkCount s c, lane_chunkData s c⟩
    simp [expandLine, encsCommands, hc, encsChunk_eq_encb]

/-! ### ENCB commands in sequence (R84, R86) -/

/-- An ENCB whose count is legal scans (R64, R86). -/
theorem exec_encb_of_le {n : BitVec 5} (h : n ≤ 8) (d : Mask) (s : State) :
    exec (.encb n d) s = .next (scanIntoAcc n.toNat d s) :=
  (exec_encb n d s).trans (congrArg _ (if_neg (BitVec.not_lt.2 h)))

/-- The room MAX_LEN leaves (R86). -/
def room (s : State) : Nat := s.build.maxLen.toNat - s.cnt.toNat

/-- A scan takes its lanes from the room. -/
theorem room_scanIntoAcc (n : Nat) (d : Mask) (s : State) : room (scanIntoAcc n d s) = room s - n := by
  rw [room, build_scanIntoAcc, toNat_cnt_scanIntoAcc, acceptedLanes, room]
  omega

/-- What an ENCB command and the rest of a stream add: the stream, cut at the room. -/
theorem encodeBytes_take_lanes (b : Build) (n k : Nat) (d : Mask) (rest : List Byte) :
    encodeBytes b (((List.range n).map (lane d) ++ rest).take k)
      = encodeBytes b ((List.range (min n k)).map (lane d)) ||| encodeBytes b (rest.take (k - n)) := by
  rw [List.take_append, encodeBytes_append, ← List.map_take, List.take_range, List.length_map, List.length_range,
    Nat.min_comm]

/-- A sequence of ENCB commands, from any state: ACC gains the bytes of the stream that MAX_LEN leaves room for, CNT
their number, and beside the encoder only RSP moves. -/
theorem execAll_encbs (cmds : List (BitVec 5 × Mask)) (hLegal : ∀ c ∈ cmds, c.1 ≤ 8) (s : State) :
    ∃ cnt rsp, execAll (encbs cmds) s
        = .next (setRsp rsp (setEncoder (s.acc ||| encodeBytes s.build ((streamOf cmds).take (room s))) cnt s))
      ∧ cnt.toNat = s.cnt.toNat + min (streamOf cmds).length (room s) := by
  induction cmds generalizing s with
  | nil => exact ⟨s.cnt, s.rsp, by simp [encbs, streamOf, execAll, encodeBytes, setRsp, setEncoder], by simp [streamOf]⟩
  | cons p cmds ih =>
    obtain ⟨n, d⟩ := p
    have hStream : streamOf ((n, d) :: cmds) = (List.range n.toNat).map (lane d) ++ streamOf cmds := rfl
    have hHead : execAll (encbs ((n, d) :: cmds)) s = execAll (encbs cmds) (scanIntoAcc n.toNat d s) := by
      simp [encbs, execAll, exec_encb_of_le (hLegal (n, d) (by simp)) d s]
    obtain ⟨cnt, rsp, hRun, hLen⟩ := ih (fun c hc => hLegal c (by simp [hc])) (scanIntoAcc n.toNat d s)
    rw [room_scanIntoAcc] at hRun hLen
    refine ⟨cnt, rsp, ?_, ?_⟩
    · rw [hHead, hRun, acc_scanIntoAcc, hStream, encodeBytes_take_lanes, ← BitVec.or_assoc]
      rfl
    · rw [hLen, toNat_cnt_scanIntoAcc, hStream, List.length_append, List.length_map, List.length_range, acceptedLanes,
        room]
      omega

@[simp] theorem readM_setRsp (r : MReg) (x : Response) (s : State) : readM r (setRsp x s) = readM r s :=
  readM_congr r s _ rfl

/-- Settles O56: after ENCCLR the room is MAX_LEN, the stream is the string, and ENCST stores ACC. -/
theorem encodePseudoInstructionEncodesTheString : Obligations.EncodePseudoInstructionEncodesTheString := by
  unfold Obligations.EncodePseudoInstructionEncodesTheString
  intro rd bytes s
  obtain ⟨cnt, rsp, hRun, hCnt⟩ :=
    execAll_encbs (encsOperands bytes) (encsOperands_legal bytes) (respond 0 (setEncoder 0 0 s))
  have hRoom : room (respond 0 (setEncoder 0 0 s)) = s.build.maxLen.toNat := rfl
  rw [streamOf_encsOperands, hRoom] at hRun hCnt
  rw [← encsCommands_eq_encbs] at hRun
  refine ⟨_, execAll_append _ [.encst rd] _ _ hRun, ?_⟩
  refine ⟨by simp, ?_, fun r hr => ?_, rfl, ⟨rfl, rfl⟩, rfl, rfl, rfl, rfl, rfl, rfl⟩
  · simpa using hCnt
  · simp [List.mem_singleton.not.1 hr]

end Sys2Proof.Machine
end

section
/-!
The encoder (R80 to R87): its command words, the lookup and encode as set functions, its commands, an encode session.
-/

namespace Sys2Proof.Machine

/-! ### Words with an unused field or an immediate out of range (R63, R64) -/

/-- A row's mask checks its unused fields, which are 0 in its pattern, so a word that has one nonzero is RSVD (R63). -/
theorem rejectsNonzero_of_unused {row : OpcodeRow} (hRow : row ∈ opcodeMap) {lo len : Nat}
    (hMask : row.mask.extractLsb' lo len = BitVec.allOnes len) (hPattern : row.pattern.extractLsb' lo len = 0) :
    RejectsNonzero row.opc lo len := by
  intro w d hOpc hNonzero
  have hMismatch : w &&& row.mask ≠ row.pattern := by
    intro hMatch
    apply hNonzero
    rw [← hPattern, ← hMatch, BitVec.extractLsb'_and, hMask, BitVec.and_allOnes]
  simp [decode, hOpc, opcodeRow?_opc_of_mem row hRow, hMismatch]

/-- Bits 15:5 of a word are its OPC and the six bits 10:5. -/
theorem and_immMask (w : CmdWord) :
    w &&& (0xFFE0 : CmdWord) = ((opcOf w).setWidth 16 <<< 11) ||| ((w.extractLsb' 5 6).setWidth 16 <<< 5) := by
  ext j hj
  interval_cases j <;> simp [opcOf]

/-- Of an operation whose only field is IMM5, a word that passes the RSVD check gets to the operation's RANGE check. -/
theorem rejectsAbove_of_range {row : OpcodeRow} (hRow : row ∈ opcodeMap) (hMask : row.mask = 0xFFE0) {limit : Nat}
    (hRange : ∀ (w : CmdWord) (d : Mask), limit < (immOf w).toNat → commandOf row.operation w d = .error .range) :
    RejectsAbove row.opc limit := by
  intro w d hOpc hUnused hAbove
  have hPattern : ∀ r ∈ opcodeMap, r.opc.setWidth 16 <<< 11 = r.pattern := by decide
  have hMatch : w &&& row.mask = row.pattern := by
    rw [hMask, and_immMask, hOpc, hUnused, ← hPattern row hRow]
    simp
  exact (decode_of_match hRow hMatch d).trans (hRange w d hAbove)

/-! ### The lookup (R80, R81) -/

/-- A hit vector is 1 << i exactly for the byte at position `i` (R81). -/
theorem hit_eq_shiftLeft_iff (b : Build) (x : Byte) (i : Fin 64) : hit b x = 1#64 <<< i.val ↔ b.symbolAt i = x := by
  constructor
  · intro h
    have hBit := getLsbD_hit b x i
    simpa [h] using hBit.symm
  · rintro rfl
    exact hit_symbolAt b i

/-- A hit vector is 0 exactly for a byte outside the alphabet (R82). -/
theorem hit_eq_zero_iff (b : Build) (x : Byte) : hit b x = 0 ↔ ∀ i : Fin 64, b.symbolAt i ≠ x := by
  constructor
  · intro h i hi
    have hBit := getLsbD_hit b x i
    simp [h, hi] at hBit
  · intro h
    apply BitVec.eq_of_getLsbD_eq
    intro k hk
    simp [getLsbD_hit b x ⟨k, hk⟩, h]

theorem positionOf_eq_none_iff (b : Build) (x : Byte) : positionOf b x = none ↔ ∀ i : Fin 64, b.symbolAt i ≠ x := by
  simp [positionOf]

/-- The position found is the only one with the symbol (R7, R81). -/
theorem positionOf_eq_some_iff (b : Build) (x : Byte) (i : Fin 64) : positionOf b x = some i ↔ b.symbolAt i = x := by
  have hFound {j : Fin 64} (h : positionOf b x = some j) : b.symbolAt j = x := by
    simpa using List.find?_some (p := fun i => decide (b.symbolAt i = x)) h
  refine ⟨hFound, fun hi => ?_⟩
  cases h : positionOf b x with
  | none => exact absurd hi ((positionOf_eq_none_iff b x).1 h i)
  | some j => rw [(symbolAt_inj b j i).1 ((hFound h).trans hi.symm)]

/-- At most one bit of a hit vector is set (R81): each position is counted at most once. -/
theorem popcount_hit_le (b : Build) (x : Byte) : popcount (hit b x) ≤ 1 := by
  simp only [popcount, getLsbD_hit]
  by_cases hx : ∃ j, b.symbolAt j = x
  · obtain ⟨j, rfl⟩ := hx
    simp only [symbolAt_inj]
    exact List.nodup_iff_count_le_one.1 (List.nodup_finRange 64) j
  · simp [not_exists.1 hx]

/-- Settles O10: the hit vector and the position found both say which position, if any, holds the byte. -/
theorem hitVectorIsTheLookup : Obligations.HitVectorIsTheLookup := by
  unfold Obligations.HitVectorIsTheLookup
  refine fun b x => ⟨fun i => by rw [getLsbD_hit, decide_eq_true_iff], popcount_hit_le b x,
    ?zeroOrOne, fun i => ?found, ?notFound⟩
  case zeroOrOne =>
    simp only [hit_eq_zero_iff, hit_eq_shiftLeft_iff]
    by_cases hx : ∃ i, b.symbolAt i = x
    · obtain ⟨i, hi⟩ := hx
      exact .inr ⟨i, hi, fun j hj => (symbolAt_inj b j i).1 (hj.trans hi.symm)⟩
    · exact .inl (not_exists.1 hx)
  case found => rw [positionOf_eq_some_iff, hit_eq_shiftLeft_iff]
  case notFound => rw [positionOf_eq_none_iff, hit_eq_zero_iff]

/-! ### Encode as a set (R83) -/

theorem encodeBytes_cons (b : Build) (x : Byte) (s : List Byte) :
    encodeBytes b (x :: s) = hit b x ||| encodeBytes b s := by
  have hOne : encodeBytes b [x] = hit b x := BitVec.zero_or
  rw [← List.singleton_append, encodeBytes_append, hOne]

/-- Only the set of the bytes matters (R83). -/
theorem encodeBytes_congr (b : Build) {s t : List Byte} (h : ∀ x, x ∈ s ↔ x ∈ t) :
    encodeBytes b s = encodeBytes b t := by
  apply BitVec.eq_of_getLsbD_eq
  intro k hk
  rw [getLsbD_encodeBytes b s ⟨k, hk⟩, getLsbD_encodeBytes b t ⟨k, hk⟩, decide_eq_decide]
  exact h _

/-- Settles O11: encode bit by bit. -/
theorem encodeFoldsIntoASet : Obligations.EncodeFoldsIntoASet := by
  unfold Obligations.EncodeFoldsIntoASet
  refine fun b => ⟨rfl, encodeBytes_cons b, fun s i => ?bit, fun s t => encodeBytes_congr b⟩
  case bit => rw [getLsbD_encodeBytes, decide_eq_true_iff]

/-! ### The encoder's commands (R85 to R87) -/

theorem exec_encclr (s : State) : exec .encclr s = .next (respond 0 (setEncoder 0 0 s)) := rfl

theorem exec_encst (rd : MReg) (s : State) : exec (.encst rd) s = .next (respond s.acc (writeM rd s.acc s)) := rfl

/-- Writing a mask register and answering the value changes nothing else (R46). -/
theorem writesMask_respond_writeM (rd : MReg) (v : Mask) (s : State) :
    WritesMask rd v s (respond v (writeM rd v s)) := by
  refine ⟨by simp, rfl, fun r hr => ?_, ⟨rfl, rfl⟩, rfl, ⟨rfl, rfl⟩, rfl, rfl, rfl, rfl, rfl, rfl⟩
  simp [List.mem_singleton.not.1 hr]

/-- The word of ENCB n (R60, R62). -/
theorem encodeWord_encb (n : BitVec 5) (d : Mask) : encodeWord (.encb n d) = 0x1000 ||| n.setWidth 16 := by
  simp [encodeWord, assembleWord]

/-- ACC after a scan, bit by bit: a bit is gained exactly if its symbol is in an accepted lane (R86). -/
theorem getLsbD_acc_scanIntoAcc (n : Nat) (d : Mask) (s : State) (i : Fin 64) :
    (scanIntoAcc n d s).acc.getLsbD i.val
      = (s.acc.getLsbD i.val || decide (∃ j, j < acceptedLanes n s ∧ lane d j = s.build.symbolAt i)) := by
  rw [acc_scanIntoAcc, BitVec.getLsbD_or, getLsbD_encodeBytes]
  simp only [List.mem_map, List.mem_range]

/-- Settles O7: the row of ENCCLR checks all of 10:0; the execution writes the encoder and the response only. -/
theorem encclrClearsTheEncoder : Obligations.EncclrClearsTheEncoder := by
  unfold Obligations.EncclrClearsTheEncoder
  refine ⟨fun d => rfl, ?unused, fun s => ⟨_, exec_encclr s, ?effect⟩⟩
  case unused => exact rejectsNonzero_of_unused (row := ⟨.encclr, 0x01, 0x0800, 0xFFFF⟩) (by decide) rfl rfl
  case effect =>
    exact ⟨rfl, rfl, rfl, fun r _ => readM_congr r s _ rfl, rfl, ⟨rfl, rfl⟩, rfl, rfl, rfl, rfl, rfl, rfl⟩

/-- Settles O9: the row of ENCST checks all of 8:0; the execution is a write of ACC to the register. -/
theorem encstStoresTheAccumulator : Obligations.EncstStoresTheAccumulator := by
  unfold Obligations.EncstStoresTheAccumulator
  refine ⟨fun rd d => ?word, ?unused, fun rd s => ⟨_, exec_encst rd s, writesMask_respond_writeM rd s.acc s⟩⟩
  case word => cases rd <;> rfl
  case unused => exact rejectsNonzero_of_unused (row := ⟨.encst, 0x03, 0x1800, 0xF9FF⟩) (by decide) rfl rfl

/-- Settles O8: a legal count scans, and the scan is read bit by bit; the other counts fail the RANGE check. -/
theorem encbScansTheCountedLanes : Obligations.EncbScansTheCountedLanes := by
  unfold Obligations.EncbScansTheCountedLanes
  have hRow : ⟨.encb, 0x02, 0x1000, 0xFFE0⟩ ∈ opcodeMap := by decide
  refine ⟨fun n d hn => ?word, rejectsNonzero_of_unused hRow rfl rfl, rejectsAbove_of_range hRow rfl ?range,
    fun n d s hn => ⟨_, exec_encb_of_le hn d s, getLsbD_acc_scanIntoAcc n.toNat d s, toNat_cnt_scanIntoAcc n.toNat d s,
      rfl, rfl, ?frame⟩⟩
  case word =>
    rw [← encodeWord_encb n d]
    exact decodeOfEncodeIsTheInstruction (.encb n d) (decide_eq_true hn)
  case range => exact fun w d hAbove => if_pos hAbove
  case frame => exact ⟨fun r _ => readM_congr r s _ rfl, rfl, ⟨rfl, rfl⟩, rfl, rfl, rfl, rfl, rfl, rfl⟩

/-! ### An encode session (R84) -/

/-- A session from a clear encoder: all of MAX_LEN is room, and ACC and CNT start from 0. -/
theorem execAll_encbs_of_clear (cmds : List (BitVec 5 × Mask)) (hLegal : ∀ c ∈ cmds, c.1 ≤ 8) (s : State)
    (hAcc : s.acc = 0) (hCnt : s.cnt = 0) :
    ∃ t : State, execAll (encbs cmds) s = .next t
      ∧ t.acc = encodeBytes s.build ((streamOf cmds).take s.build.maxLen.toNat)
      ∧ t.cnt.toNat = min (streamOf cmds).length s.build.maxLen.toNat := by
  obtain ⟨cnt, rsp, hRun, hLen⟩ := execAll_encbs cmds hLegal s
  have hRoom : room s = s.build.maxLen.toNat := by simp [room, hCnt]
  rw [hRoom] at hRun hLen
  exact ⟨_, hRun, by simp [hAcc], by simpa [hCnt] using hLen⟩

/-- Settles O12: ENCCLR leaves the encoder clear and the build as it was. -/
theorem sessionEncodesTheFirstMaxLenBytes : Obligations.SessionEncodesTheFirstMaxLenBytes := by
  unfold Obligations.SessionEncodesTheFirstMaxLenBytes
  intro cmds s hLegal
  exact ⟨execAll_encbs_of_clear cmds hLegal (respond 0 (setEncoder 0 0 s)) rfl rfl,
    execAll_encbs_of_clear cmds hLegal s⟩

end Sys2Proof.Machine
end

section
/-!
The decoder (R100 to R106): the decoded sequence as the positions of the members, its length, its commands, the round
trip with encode.
-/

namespace Sys2Proof.Machine

/-! ### The positions a mask decodes to (R100) -/

/-- The positions of the set bits of a mask from 63 down to 0, whose symbols are the decoded sequence (R100). -/
def memberPositions (a : Mask) : List (Fin 64) := (List.finRange 64).reverse.filter fun i => a.getLsbD i.val

theorem decodeMask_eq_map (b : Build) (a : Mask) : decodeMask b a = (memberPositions a).map b.symbolAt := rfl

@[simp] theorem mem_memberPositions (a : Mask) (i : Fin 64) : i ∈ memberPositions a ↔ a.getLsbD i.val = true := by
  simp [memberPositions]

theorem pairwise_memberPositions (a : Mask) : (memberPositions a).Pairwise fun i j => j < i :=
  (List.pairwise_reverse.2 (List.sortedLT_finRange 64).pairwise).filter _

/-- In a descending list an element stands at the index that counts the larger elements. -/
theorem countP_lt_of_getElem? {n : Nat} {l : List (Fin n)} (hDesc : l.Pairwise fun i j => j < i) {k : Nat} {p : Fin n}
    (hk : l[k]? = some p) : l.countP (fun q => p < q) = k := by
  induction l generalizing k with
  | nil => simp at hk
  | cons x xs ih =>
    obtain ⟨hHead, hTail⟩ := List.pairwise_cons.1 hDesc
    cases k with
    | zero =>
      obtain rfl : x = p := by simpa using hk
      simpa [List.countP_eq_zero] using fun q hq => (hHead q hq).le
    | succ k =>
      have hk' : xs[k]? = some p := by simpa using hk
      have hp : p < x := hHead p (List.mem_of_getElem? hk')
      rw [List.countP_cons, ih hTail hk', if_pos (decide_eq_true hp)]

/-! ### The population count (R10, R103) -/

theorem countP_finRange_val (n : Nat) (f : Nat → Bool) :
    ((List.finRange n).countP fun i => f i.val) = (List.range n).countP f := by
  rw [← List.map_coe_finRange_eq_range, List.countP_map]
  rfl

/-- Shifting right by `n` leaves the set bits from `n` up to be counted: the `m = 64 - n` upper positions move down, and
zeros come in above them. -/
theorem popcount_shiftRight (a : Mask) {n : Nat} (hn : n ≤ 64) :
    popcount (a >>> n) = (List.finRange 64).countP fun i => decide (n ≤ i.val) && a.getLsbD i.val := by
  obtain ⟨m, hm⟩ := Nat.exists_eq_add_of_le hn
  have hLow : List.range 64 = List.range n ++ (List.range m).map (n + ·) := hm ▸ List.range_add
  have hHigh : List.range 64 = List.range m ++ (List.range n).map (m + ·) := by
    rw [← List.range_add, hm, Nat.add_comm]
  have hShiftedOut : ((List.range n).map (m + ·)).countP (fun i => a.getLsbD (n + i)) = 0 := by
    simp [List.countP_eq_zero, BitVec.getLsbD_of_ge, hm, ← Nat.add_assoc]
  have hBelow : (List.range n).countP (fun i => decide (n ≤ i) && a.getLsbD i) = 0 := by
    simp +contextual [List.countP_eq_zero]
  calc popcount (a >>> n) = (List.range m).countP fun i => a.getLsbD (n + i) := by
        simp only [popcount, BitVec.getLsbD_ushiftRight]
        rw [countP_finRange_val 64 fun i => a.getLsbD (n + i), hHigh, List.countP_append, hShiftedOut, Nat.add_zero]
    _ = (List.range 64).countP fun i => decide (n ≤ i) && a.getLsbD i := by
        rw [hLow, List.countP_append, hBelow, Nat.zero_add, List.countP_map]
        simp [Function.comp_def]
    _ = (List.finRange 64).countP fun i => decide (n ≤ i.val) && a.getLsbD i.val :=
        (countP_finRange_val 64 _).symm

/-- The index R100 gives a position: how many members stand above it. -/
theorem countP_memberPositions (a : Mask) (p : Fin 64) :
    (memberPositions a).countP (fun q => p < q) = popcount (a >>> (p.val + 1)) := by
  rw [popcount_shiftRight a p.isLt, memberPositions, List.countP_filter, List.countP_reverse]
  rfl

theorem popcount_eq_card (v : Mask) :
    popcount v = (Finset.univ.filter fun i : Fin 64 => v.getLsbD i.val = true).card := by
  simp [popcount, List.countP_eq_length_filter, Finset.card_def, Fin.univ_def]

/-! ### The decoded sequence (R100, R103) -/

/-- Settles O13: the decoded positions stand in descending order, so each at the index that counts the larger ones. -/
theorem decodeListsTheMembersDescending : Obligations.DecodeListsTheMembersDescending := by
  unfold Obligations.DecodeListsTheMembersDescending
  intro b a
  have hIndex {k : Nat} {p : Fin 64} (hk : (memberPositions a)[k]? = some p) : popcount (a >>> (p.val + 1)) = k :=
    (countP_memberPositions a p).symm.trans (countP_lt_of_getElem? (pairwise_memberPositions a) hk)
  simp only [decodeMask_eq_map, List.getElem?_map, Option.map_eq_some_iff]
  refine ⟨fun p hp => ?_, fun k x ⟨p, hk, hx⟩ => ⟨p, ?_, hIndex hk, hx⟩⟩
  · obtain ⟨k, hk⟩ := List.mem_iff_getElem?.1 ((mem_memberPositions a p).2 hp)
    exact ⟨p, (hIndex hk).symm ▸ hk, rfl⟩
  · exact (mem_memberPositions a p).1 (List.mem_of_getElem? hk)

/-- The symbol of a position is decoded exactly if the position's bit is set (R7, R100). -/
theorem symbolAt_mem_decodeMask (b : Build) (a : Mask) (i : Fin 64) :
    b.symbolAt i ∈ decodeMask b a ↔ a.getLsbD i.val = true := by
  simp [mem_decodeMask, symbolAt_inj]

/-- Settles O14: the length is the count of the filtered positions, all 64 of them. -/
theorem decodedLengthIsTheCardinality : Obligations.DecodedLengthIsTheCardinality :=
  fun b a => ⟨length_decodeMask b a, popcount_eq_card a, symbolAt_mem_decodeMask b a⟩

/-! ### The round trip (R106) -/

theorem encodeBytes_decodeMask (b : Build) (a : Mask) : encodeBytes b (decodeMask b a) = a := by
  apply BitVec.eq_of_getLsbD_eq
  intro k hk
  rw [getLsbD_encodeBytes b _ ⟨k, hk⟩, Bool.eq_iff_iff, decide_eq_true_iff]
  exact symbolAt_mem_decodeMask b a ⟨k, hk⟩

/-- The symbols decoded from an encoding are those of the sequence encoded; other bytes are dropped (R82). -/
theorem mem_decodeMask_encodeBytes (b : Build) (s : List Byte) (x : Byte) :
    x ∈ decodeMask b (encodeBytes b s) ↔ x ∈ s ∧ ∃ i : Fin 64, b.symbolAt i = x := by
  simp only [mem_decodeMask, getLsbD_encodeBytes, decide_eq_true_eq]
  constructor
  · rintro ⟨i, hi, rfl⟩
    exact ⟨hi, i, rfl⟩
  · rintro ⟨hx, i, rfl⟩
    exact ⟨i, hx, rfl⟩

/-- The symbols of a decoded sequence stand in descending position order (R100). -/
theorem pairwise_decodeMask (b : Build) (a : Mask) : (decodeMask b a).Pairwise fun x y =>
    ∃ i j : Fin 64, b.symbolAt i = x ∧ b.symbolAt j = y ∧ j < i :=
  List.pairwise_map.2 ((pairwise_memberPositions a).imp fun {i j} h => ⟨i, j, rfl, rfl, h⟩)

/-- No symbol is decoded twice, since no two positions have the same (R7). -/
theorem nodup_decodeMask (b : Build) (a : Mask) : (decodeMask b a).Nodup := by
  refine (pairwise_decodeMask b a).imp ?_
  rintro x y ⟨i, j, rfl, rfl, h⟩ hEq
  exact h.ne' ((symbolAt_inj b i j).1 hEq)

/-- Settles O18: encode bit by bit; and two lists without repetition and with the same members are rearrangements. -/
theorem encodeAndDecodeRoundTrip : Obligations.EncodeAndDecodeRoundTrip := by
  unfold Obligations.EncodeAndDecodeRoundTrip
  refine fun b => ⟨encodeBytes_decodeMask b, fun s hNodup hSymbols _ => ⟨?_, pairwise_decodeMask b _⟩⟩
  rw [List.perm_ext_iff_of_nodup (nodup_decodeMask b _) hNodup]
  intro x
  rw [mem_decodeMask_encodeBytes]
  exact and_iff_left_of_imp (hSymbols x)

/-! ### DEC and RDDEC (R101, R102) -/

/-- An instruction's word decodes to the instruction, with the data given where it has a data operand (R68, R70). -/
theorem decode_encodeWord {i : Instr} (hWf : i.WellFormed) (d : Mask) :
    decode (encodeWord i) d = .ok (i.withData d) := by
  rw [decode_withData _ (encodeData i) d]
  exact congrArg _ (decodeOfEncodeIsTheInstruction i hWf)

theorem exec_dec (ra : MReg) (s : State) :
    exec (.dec ra) s = .next (respond (BitVec.ofNat 64 (decodeMask s.build (readM ra s)).length)
      (setDecoded (decodeMask s.build (readM ra s)) s)) := rfl

@[simp] theorem readDout_setDecoded (q : List Byte) (s : State) {k : Nat} (hk : k < 64) :
    readDout k (setDecoded q s) = q.getD k 0 := by
  rw [readDout, setDecoded_dout, Vector.getElem?_eq_getElem hk, Option.getD_some, getElem_doutOf q k hk]

/-- DLEN counts the decoded symbols: up to 64 fit its 7 bits (R26, R103). -/
theorem toNat_dlen_setDecoded (b : Build) (a : Mask) (s : State) :
    (setDecoded (decodeMask b a) s).dlen.toNat = popcount a := by
  rw [setDecoded_dlen, length_decodeMask, toNat_ofNat_popcount]

/-- Settles O15: the row of DEC checks 10:9 and 6:0; the execution writes DOUT, DLEN and the response only. -/
theorem decWritesTheDecodedSequence : Obligations.DecWritesTheDecodedSequence := by
  unfold Obligations.DecWritesTheDecodedSequence
  have hRow : ⟨.dec, 0x0C, 0x6000, 0xFE7F⟩ ∈ opcodeMap := by decide
  refine ⟨fun ra d => ?word, rejectsNonzero_of_unused hRow rfl rfl, rejectsNonzero_of_unused hRow rfl rfl,
    fun ra s => ⟨_, exec_dec ra s, fun k hk => ?dout, ?dlen, rfl, ?frame⟩⟩
  case word => cases ra <;> rfl
  case dout =>
    rw [readDout_respond, readDout_setDecoded _ s hk]
    split
    case isTrue => rfl
    case isFalse hPast => exact List.getD_eq_default _ _ (Nat.le_of_not_lt hPast)
  case dlen => rw [respond_dlen, toNat_dlen_setDecoded, length_decodeMask]
  case frame => exact ⟨fun r _ => readM_congr r s _ rfl, ⟨rfl, rfl⟩, rfl, rfl, rfl, rfl, rfl, rfl, rfl⟩

/-- An RDDEC whose chunk index is legal answers its eight bytes (R64, R102). -/
theorem exec_rddec_of_le {k : BitVec 5} (h : k ≤ 7) (s : State) :
    exec (.rddec k) s = .next (respond (packLanes fun j => readDout (8 * k.toNat + j) s) s) :=
  (exec_rddec k s).trans (congrArg _ (if_neg (BitVec.not_lt.2 h)))

/-- Answering a command changes nothing but RSP (R43). -/
theorem onlyResponds_respond (v : Mask) (s : State) : OnlyResponds v s (respond v s) :=
  ⟨rfl, fun r _ => readM_respond s r v, ⟨rfl, rfl⟩, rfl, ⟨rfl, rfl⟩, rfl, rfl, rfl, rfl, rfl, rfl⟩

/-- The word of RDDEC k (R60, R62). -/
theorem encodeWord_rddec (k : BitVec 5) : encodeWord (.rddec k) = 0x6800 ||| k.setWidth 16 := by
  simp [encodeWord, assembleWord]

/-- Settles O16: a legal chunk index answers packed lanes; the others fail the RANGE check. -/
theorem rddecReadsEightBytes : Obligations.RddecReadsEightBytes := by
  unfold Obligations.RddecReadsEightBytes
  have hRow : ⟨.rddec, 0x0D, 0x6800, 0xFFE0⟩ ∈ opcodeMap := by decide
  refine ⟨fun k d hk => ?word, rejectsNonzero_of_unused hRow rfl rfl, rejectsAbove_of_range hRow rfl ?range,
    fun k s hk => ⟨_, _, exec_rddec_of_le hk s, lane_packLanes _, onlyResponds_respond _ s⟩⟩
  case word =>
    rw [← encodeWord_rddec k]
    exact decode_encodeWord (i := .rddec k) (decide_eq_true hk) d
  case range => exact fun w d hAbove => if_pos hAbove

/-! ### The snapshot (R104) -/

/-- No command but DEC writes DLEN or DOUT (R20, R104). -/
theorem exec_keepsDecoded {i : Instr} (hNotDec : ∀ q : MReg, i ≠ .dec q) {s t : State} (h : exec i s = .next t) :
    KeepsDecoded s t := by
  by_contra hChanged
  obtain ⟨q, hq⟩ := (exec_effect h).dec_command_of_ne (not_and_or.1 hChanged)
  exact hNotDec q hq

theorem execAll_cons {i : Instr} {s t : State} (is : List Instr) (h : exec i s = .next t) :
    execAll (i :: is) s = execAll is t := by
  simp only [execAll, h]

theorem execAll_keepsDecoded (is : List Instr) (hNotDec : ∀ i ∈ is, ∀ q : MReg, i ≠ .dec q) (s u : State)
    (h : execAll is s = .next u) : KeepsDecoded s u := by
  induction is generalizing s with
  | nil =>
    cases h
    exact ⟨rfl, rfl⟩
  | cons i is ih =>
    obtain ⟨hHead, hTail⟩ := List.forall_mem_cons.1 hNotDec
    obtain ⟨t, ht, -⟩ := exec_answers i s
    obtain ⟨hDlen, hDout⟩ := exec_keepsDecoded hHead ht
    obtain ⟨hDlen', hDout'⟩ := ih hTail t ((execAll_cons is ht).symm.trans h)
    exact ⟨hDlen'.trans hDlen, hDout'.trans hDout⟩

/-- Settles O17: what DEC leaves is a function of the mask and the build, and the commands that follow keep it. -/
theorem decodedSequenceIsASnapshot : Obligations.DecodedSequenceIsASnapshot := by
  unfold Obligations.DecodedSequenceIsASnapshot
  refine ⟨fun ra is s t u hDec hNotDec hRun => ?kept, fun ra q s t s' t' hDec hDec' hMask hBuild => ?same⟩
  case kept =>
    obtain ⟨hDlen, hDout⟩ := execAll_keepsDecoded is hNotDec t u hRun
    cases (exec_dec ra s).symm.trans hDec
    refine ⟨?_, fun k hk => ?_⟩
    · rw [hDlen, respond_dlen, toNat_dlen_setDecoded]
    · rw [readDout_congr k _ u hDout, readDout_respond, readDout_setDecoded _ s hk]
  case same =>
    cases (exec_dec ra s).symm.trans hDec
    cases (exec_dec q s').symm.trans hDec'
    simp [hMask, hBuild]

end Sys2Proof.Machine
end

section
/-!
The set-algebra unit (R120 to R128): its command words, its five operations, the cardinality, and the laws.
-/

namespace Sys2Proof.Machine

/-! ### Command words with register operands (R60, R68) -/

/-- A word assembled from registers, each index at its place, and IMM5 = 0. -/
theorem assembleWord_regs (opc : BitVec 5) (rd ra rb : MReg) :
    assembleWord opc (regIndex rd) (regIndex ra) (regIndex rb) 0
      = (opc.setWidth 16 <<< 11) ||| indexAt 9 rd ||| indexAt 7 ra ||| indexAt 5 rb := by
  simp [assembleWord, indexAt]

/-- A destination and one source, RB unused and so 0. -/
theorem assembleWord_twoRegs (opc : BitVec 5) (rd ra : MReg) :
    assembleWord opc (regIndex rd) (regIndex ra) 0 0 = (opc.setWidth 16 <<< 11) ||| indexAt 9 rd ||| indexAt 7 ra := by
  simp [assembleWord, indexAt]

/-- `decode_encodeWord` for a word written in another way. -/
theorem decode_of_encodeWord {i : Instr} {w : CmdWord} (hWord : encodeWord i = w) (hWf : i.WellFormed) (d : Mask) :
    decode w d = .ok (i.withData d) :=
  hWord ▸ decode_encodeWord hWf d

/-! ### The operations (R120 to R125) -/

/-- The algebra write changes M[rd] and the response, and nothing else (R120). -/
theorem writesMask_writeAlgebra (f : Mask → Mask → Mask) (rd ra rb : MReg) (s : State) :
    WritesMask rd (f (readM ra s) (readM rb s)) s (writeAlgebra f rd ra rb s) :=
  writesMask_respond_writeM rd _ s

section Operations

variable (rd ra rb : MReg) (s : State)

theorem exec_and : exec (.and rd ra rb) s = .next (writeAlgebra (· &&& ·) rd ra rb s) := rfl

theorem exec_or : exec (.or rd ra rb) s = .next (writeAlgebra (· ||| ·) rd ra rb s) := rfl

theorem exec_xor : exec (.xor rd ra rb) s = .next (writeAlgebra (· ^^^ ·) rd ra rb s) := rfl

theorem exec_not : exec (.not rd ra) s = .next (writeAlgebra (fun a _ => ~~~a) rd ra ra s) := rfl

theorem exec_andn : exec (.andn rd ra rb) s = .next (writeAlgebra (fun a b => a &&& ~~~b) rd ra rb s) := rfl

end Operations

/-- The symmetric difference as the two differences (R128). -/
theorem differences_or_eq_xor (a b : Mask) : (a &&& ~~~b) ||| (b &&& ~~~a) = a ^^^ b := by
  ext i hi
  simp only [BitVec.getElem_or, BitVec.getElem_and, BitVec.getElem_not, BitVec.getElem_xor]
  cases a[i] <;> cases b[i] <;> rfl

/-- Settles O19: the row of AND checks 4:0; the execution is the algebra write of the intersection. -/
theorem andWritesTheIntersection : Obligations.AndWritesTheIntersection := by
  unfold Obligations.AndWritesTheIntersection
  refine ⟨fun rd ra rb => ?word, ?unused,
    fun rd ra rb s => ⟨_, exec_and rd ra rb s, writesMask_writeAlgebra _ rd ra rb s⟩⟩
  case word => exact decode_of_encodeWord (i := .and rd ra rb) (assembleWord_regs 0x06 rd ra rb) rfl
  case unused => exact rejectsNonzero_of_unused (row := ⟨.and, 0x06, 0x3000, 0xF81F⟩) (by decide) rfl rfl

/-- Settles O20: the row of OR checks 4:0; the execution is the algebra write of the union. -/
theorem orWritesTheUnion : Obligations.OrWritesTheUnion := by
  unfold Obligations.OrWritesTheUnion
  refine ⟨fun rd ra rb => ?word, ?unused,
    fun rd ra rb s => ⟨_, exec_or rd ra rb s, writesMask_writeAlgebra _ rd ra rb s⟩⟩
  case word => exact decode_of_encodeWord (i := .or rd ra rb) (assembleWord_regs 0x07 rd ra rb) rfl
  case unused => exact rejectsNonzero_of_unused (row := ⟨.or, 0x07, 0x3800, 0xF81F⟩) (by decide) rfl rfl

/-- Settles O21: the row of XOR checks 4:0; the execution is the algebra write of the symmetric difference. -/
theorem xorWritesTheSymmetricDifference : Obligations.XorWritesTheSymmetricDifference := by
  unfold Obligations.XorWritesTheSymmetricDifference
  refine ⟨fun rd ra rb => ?word, ?unused, differences_or_eq_xor,
    fun rd ra rb s => ⟨_, exec_xor rd ra rb s, writesMask_writeAlgebra _ rd ra rb s⟩⟩
  case word => exact decode_of_encodeWord (i := .xor rd ra rb) (assembleWord_regs 0x08 rd ra rb) rfl
  case unused => exact rejectsNonzero_of_unused (row := ⟨.xor, 0x08, 0x4000, 0xF81F⟩) (by decide) rfl rfl

/-- Settles O22: the row of NOT checks 6:0, RB among them; the execution is the algebra write of the complement. -/
theorem notWritesTheComplement : Obligations.NotWritesTheComplement := by
  unfold Obligations.NotWritesTheComplement
  refine ⟨fun rd ra => ?word, ?unused, fun rd ra s => ⟨_, exec_not rd ra s, writesMask_writeAlgebra _ rd ra ra s⟩⟩
  case word => exact decode_of_encodeWord (i := .not rd ra) (assembleWord_twoRegs 0x09 rd ra) rfl
  case unused => exact rejectsNonzero_of_unused (row := ⟨.not, 0x09, 0x4800, 0xF87F⟩) (by decide) rfl rfl

/-- Settles O23: the row of ANDN checks 4:0; the execution is the algebra write of the difference. -/
theorem andnWritesTheDifference : Obligations.AndnWritesTheDifference := by
  unfold Obligations.AndnWritesTheDifference
  refine ⟨fun rd ra rb => ?word, ?unused,
    fun rd ra rb s => ⟨_, exec_andn rd ra rb s, writesMask_writeAlgebra _ rd ra rb s⟩⟩
  case word => exact decode_of_encodeWord (i := .andn rd ra rb) (assembleWord_regs 0x0A rd ra rb) rfl
  case unused => exact rejectsNonzero_of_unused (row := ⟨.andn, 0x0A, 0x5000, 0xF81F⟩) (by decide) rfl rfl

/-! ### The cardinality (R126) -/

theorem exec_card (ra : MReg) (s : State) :
    exec (.card ra) s = .next (respond (BitVec.ofNat 64 (popcount (readM ra s)))
      (setCard (BitVec.ofNat 7 (popcount (readM ra s))) s)) := rfl

/-- The 7 bits of CARD hold every population count, so extending them gives the count in 64 bits (R25, R126). -/
theorem setWidth_ofNat_popcount (a : Mask) :
    (BitVec.ofNat 7 (popcount a)).setWidth 64 = BitVec.ofNat 64 (popcount a) := by
  apply BitVec.eq_of_toNat_eq
  rw [BitVec.toNat_setWidth, toNat_ofNat_popcount, BitVec.toNat_ofNat]

/-- Settles O24: the row of CARD checks 10:9 and 6:0; the count fits CARD, whose extension is the response. -/
theorem cardCountsTheMembers : Obligations.CardCountsTheMembers := by
  unfold Obligations.CardCountsTheMembers
  have hRow : ⟨.card, 0x0B, 0x5800, 0xFE7F⟩ ∈ opcodeMap := by decide
  refine ⟨fun ra d => ?word, rejectsNonzero_of_unused hRow rfl rfl, rejectsNonzero_of_unused hRow rfl rfl,
    fun ra s => ⟨_, exec_card ra s, ?count, ?response, ?frame⟩⟩
  case word => cases ra <;> rfl
  case count => rw [respond_card, setCard_card, toNat_ofNat_popcount, popcount_eq_card]
  case response => rw [respond_card, setCard_card, setWidth_ofNat_popcount, Responds, respond_rsp]
  case frame => exact ⟨fun r _ => readM_congr r s _ rfl, ⟨rfl, rfl⟩, ⟨rfl, rfl⟩, rfl, rfl, rfl, rfl, rfl, rfl⟩

/-! ### Masks as sets of positions (R9, R120) -/

/-- The set of positions a mask stands for (R9). -/
def members (a : Mask) : Finset (Fin 64) := {i | a.getLsbD i.val = true}

@[simp] theorem mem_members (a : Mask) (i : Fin 64) : i ∈ members a ↔ a.getLsbD i.val = true := by
  simp [members]

theorem popcount_eq_card_members (a : Mask) : popcount a = (members a).card := popcount_eq_card a

theorem members_or (a b : Mask) : members (a ||| b) = members a ∪ members b := by
  ext i
  simp

theorem members_and (a b : Mask) : members (a &&& b) = members a ∩ members b := by
  ext i
  simp

theorem members_not (a : Mask) : members (~~~a) = (members a)ᶜ := by
  ext i
  simp

/-! ### The laws (R127) -/

theorem popcount_not (a : Mask) : popcount (~~~a) = 64 - popcount a := by
  rw [popcount_eq_card_members, members_not, Finset.card_compl, Fintype.card_fin, ← popcount_eq_card_members]

/-- Inclusion and exclusion (R127). -/
theorem popcount_or_add_popcount_and (a b : Mask) :
    popcount (a ||| b) + popcount (a &&& b) = popcount a + popcount b := by
  simp only [popcount_eq_card_members, members_or, members_and, Finset.card_union_add_card_inter]

/-- The two differences share no member, so the count of their union is the sum of theirs (R127, R128). -/
theorem popcount_xor (a b : Mask) : popcount (a ^^^ b) = popcount (a &&& ~~~b) + popcount (b &&& ~~~a) := by
  have hDisjoint : Disjoint (members (a &&& ~~~b)) (members (b &&& ~~~a)) := by
    simp only [members_and, members_not, ← Finset.sdiff_eq_inter_compl]
    exact disjoint_sdiff_sdiff
  rw [← differences_or_eq_xor, popcount_eq_card_members, members_or, Finset.card_union_of_disjoint hDisjoint,
    popcount_eq_card_members, popcount_eq_card_members]

/-- A commutative operation gives the same with its sources swapped. -/
theorem writeAlgebra_comm {f : Mask → Mask → Mask} (hComm : ∀ a b, f a b = f b a) (rd ra rb : MReg) (s : State) :
    writeAlgebra f rd ra rb s = writeAlgebra f rd rb ra s := by
  rw [writeAlgebra_spec, hComm, ← writeAlgebra_spec]

/-- NOT of a NOT result is the first source (R127). -/
theorem readM_not_not {rd ra q : MReg} {s t u : State} (ht : exec (.not rd ra) s = .next t)
    (hu : exec (.not q rd) t = .next u) : readM q u = readM ra s := by
  cases (exec_not rd ra s).symm.trans ht
  cases (exec_not q rd _).symm.trans hu
  simp

/-- ANDN and XOR of a register with itself give 0 (R127). -/
theorem readM_andn_self {rd ra : MReg} {s t : State} (h : exec (.andn rd ra ra) s = .next t) : readM rd t = 0 := by
  cases (exec_andn rd ra ra s).symm.trans h
  simp

theorem readM_xor_self {rd ra : MReg} {s t : State} (h : exec (.xor rd ra ra) s = .next t) : readM rd t = 0 := by
  cases (exec_xor rd ra ra s).symm.trans h
  simp

/-- Settles O25: the commands' laws from what the algebra write leaves in M[rd], the counts' from the member sets. -/
theorem setAlgebraLaws : Obligations.SetAlgebraLaws := by
  unfold Obligations.SetAlgebraLaws
  refine ⟨fun rd ra rb s => ⟨?and, ?or, ?xor⟩, fun _ _ _ _ _ _ => readM_not_not,
    fun _ _ _ _ => ⟨readM_andn_self, readM_xor_self⟩,
    fun a b => ⟨popcount_not a, popcount_or_add_popcount_and a b, popcount_xor a b⟩⟩
  case and => exact congrArg Host.Outcome.next (writeAlgebra_comm BitVec.and_comm rd ra rb s)
  case or => exact congrArg Host.Outcome.next (writeAlgebra_comm BitVec.or_comm rd ra rb s)
  case xor => exact congrArg Host.Outcome.next (writeAlgebra_comm BitVec.xor_comm rd ra rb s)

end Sys2Proof.Machine
end

section
/-!
Data transfer and control (R140 to R144): the command words, NOP, LDM and RDM, the special registers, CLRSTAT.
-/

namespace Sys2Proof.Machine

/-! ### NOP, LDM, RDM (R140 to R142) -/

theorem exec_nop (s : State) : exec .nop s = .next (respond 0 s) := rfl

theorem exec_ldm (rd : MReg) (d : Mask) (s : State) : exec (.ldm rd d) s = .next (respond d (writeM rd d s)) := rfl

theorem exec_rdm (ra : MReg) (s : State) : exec (.rdm ra) s = .next (respond (readM ra s) s) := rfl

/-- Settles O26: the row of NOP checks all of 10:0; the execution only answers. -/
theorem nopOnlyResponds : Obligations.NopOnlyResponds := by
  unfold Obligations.NopOnlyResponds
  refine ⟨fun d => rfl, ?unused, fun s => ⟨_, exec_nop s, onlyResponds_respond 0 s⟩⟩
  case unused => exact rejectsNonzero_of_unused (row := ⟨.nop, 0x00, 0x0000, 0xFFFF⟩) (by decide) rfl rfl

/-- Settles O27: the row of LDM checks all of 8:0; the execution is a write of the data operand to the register. -/
theorem ldmLoadsTheDataOperand : Obligations.LdmLoadsTheDataOperand := by
  unfold Obligations.LdmLoadsTheDataOperand
  refine ⟨fun rd d => ?word, ?unused, fun rd d s => ⟨_, exec_ldm rd d s, writesMask_respond_writeM rd d s⟩⟩
  case word => cases rd <;> rfl
  case unused => exact rejectsNonzero_of_unused (row := ⟨.ldm, 0x04, 0x2000, 0xF9FF⟩) (by decide) rfl rfl

/-- Settles O28: the row of RDM checks 10:9 and 6:0; the execution only answers. -/
theorem rdmReadsAMaskRegister : Obligations.RdmReadsAMaskRegister := by
  unfold Obligations.RdmReadsAMaskRegister
  have hRow : ⟨.rdm, 0x05, 0x2800, 0xFE7F⟩ ∈ opcodeMap := by decide
  refine ⟨fun ra d => ?word, rejectsNonzero_of_unused hRow rfl rfl, rejectsNonzero_of_unused hRow rfl rfl,
    fun ra s => ⟨_, exec_rdm ra s, onlyResponds_respond _ s⟩⟩
  case word => cases ra <;> rfl

/-! ### The special registers (R28 to R30, R143) -/

/-- STATUS as read, field by field (R28). -/
theorem statusWord_fields (st : Status) : (statusWord st).getLsbD 0 = st.err
    ∧ (statusWord st).extractLsb' 1 3 = st.ecode ∧ (statusWord st).extractLsb' 4 60 = 0 := by
  refine ⟨?err, ?ecode, ?above⟩
  case err =>
    rw [statusWord, BitVec.getLsbD_append, BitVec.getLsbD_append]
    simp
  case ecode => rw [statusWord, BitVec.extractLsb'_append_eq_of_add_le (by decide), BitVec.extractLsb'_append_eq_left]
  case above => exact BitVec.extractLsb'_append_eq_left

/-- A 16-bit value at bits 31:16, where PARAM has MAX_LEN, is read back from there (R30). -/
theorem extractLsb'_maxLenField (v : BitVec 16) : (v.setWidth 64 <<< 16).extractLsb' 16 16 = v := by
  ext j hj
  have hWord : 16 + j < 64 ∧ j < 64 := by omega
  simp [hWord, hj]

/-- A 16-bit value at bits 31:16 leaves the bits below and above them 0 (R30). -/
theorem extractLsb'_besideMaxLenField (v : BitVec 16) {start len : Nat} (h : start + len ≤ 16 ∨ 32 ≤ start) :
    (v.setWidth 64 <<< 16).extractLsb' start len = 0 := by
  ext j hj
  rcases h with hBelow | hAbove
  · have hShift : start + j < 16 := by omega
    simp [hShift]
  · have hWidth : 16 ≤ start + j - 16 := by omega
    simp [BitVec.getLsbD_of_ge, hWidth]

/-- PARAM field by field (R30). -/
theorem paramWord_fields (b : Build) : (paramWord b).extractLsb' 0 8 = 64 ∧ (paramWord b).extractLsb' 8 8 = 4
    ∧ (paramWord b).extractLsb' 16 16 = b.maxLen ∧ (paramWord b).extractLsb' 32 8 = 8
    ∧ (paramWord b).extractLsb' 40 24 = 0 := by
  simp only [paramWord, BitVec.extractLsb'_or]
  refine ⟨?nSym, ?nmr, ?maxLen, ?lanes, ?above⟩
  case maxLen => simp [extractLsb'_maxLenField, Config.nSym, Config.nmr, Config.lanes]
  all_goals
    rw [extractLsb'_besideMaxLenField b.maxLen (by decide)]
    rfl

/-- An RDSR whose number is legal answers that special register (R64, R143). -/
theorem exec_rdsr_of_specialReg? {n : BitVec 5} {r : SpecialReg} (h : specialReg? n = some r) (s : State) :
    exec (.rdsr n) s = .next (respond (readSpecial r s) s) := by
  rw [exec_rdsr, h]

theorem exists_specialReg? {n : BitVec 5} (h : n ≤ 5) : ∃ r, specialReg? n = some r :=
  Option.ne_none_iff_exists'.1 fun hNone => BitVec.not_lt.2 h ((specialReg?_eq_none n).1 hNone)

/-- The word of RDSR s (R60, R62). -/
theorem encodeWord_rdsr (n : BitVec 5) : encodeWord (.rdsr n) = 0x7000 ||| n.setWidth 16 := by
  simp [encodeWord, assembleWord]

/-- Settles O29: a legal number answers its special register, read field by field; the others fail the RANGE check. -/
theorem rdsrReadsTheSpecialRegisters : Obligations.RdsrReadsTheSpecialRegisters := by
  unfold Obligations.RdsrReadsTheSpecialRegisters
  have hRow : ⟨.rdsr, 0x0E, 0x7000, 0xFFE0⟩ ∈ opcodeMap := by decide
  refine ⟨fun n d hn => ?word, rejectsNonzero_of_unused hRow rfl rfl, rejectsAbove_of_range hRow rfl ?range,
    fun n s hn => ?read⟩
  case word => exact decode_of_encodeWord (i := .rdsr n) (encodeWord_rdsr n) (decide_eq_true hn) d
  case range => exact fun w d hAbove => if_pos hAbove
  case read =>
    obtain ⟨r, hr⟩ := exists_specialReg? hn
    refine ⟨_, _, exec_rdsr_of_specialReg? hr s, onlyResponds_respond _ s, ?_⟩
    refine ⟨?status, ?acc, ?ecnt, ?card, ?dlen, ?param⟩ <;> rintro rfl <;> cases hr
    case status => exact statusWord_fields s.status
    case param => exact paramWord_fields s.build
    all_goals rfl

/-! ### CLRSTAT (R144) -/

theorem exec_clrstat (s : State) : exec .clrstat s = .next (respond 0 (setStatus clearedStatus s)) := rfl

/-- A word is its OPC over its other eleven bits (R60). -/
theorem opcOf_append_rest (w : CmdWord) : opcOf w ++ w.extractLsb' 0 11 = w :=
  (BitVec.extractLsb'_append_extractLsb'_eq_extractLsb' rfl).trans BitVec.extractLsb'_eq_self

/-- A word that the decoder rejects raises the decoder's error (R67, R163). -/
theorem runCommand_of_error {c : Command} {e : ErrCode} (h : decode c.op c.data = .error e) (s : State) :
    runCommand c s = .next (raiseError e s) := by
  rw [runCommand, h]

/-- Settles O30: the row of CLRSTAT checks all of 10:0, so of its opcode every word but 0x7800 raises RSVD. -/
theorem clrstatClearsStatus : Obligations.ClrstatClearsStatus := by
  unfold Obligations.ClrstatClearsStatus
  have hUnused : RejectsNonzero 15 0 11 :=
    rejectsNonzero_of_unused (row := ⟨.clrstat, 0x0F, 0x7800, 0xFFFF⟩) (by decide) rfl rfl
  refine ⟨fun d => rfl, hUnused, fun s => ⟨_, exec_clrstat s, ?clears⟩, fun w d s t hOpc hNe hRun => ?erroneous⟩
  case clears =>
    exact ⟨rfl, rfl, rfl, fun r _ => readM_congr r s _ rfl, ⟨rfl, rfl⟩, rfl, ⟨rfl, rfl⟩, rfl, rfl, rfl, rfl, rfl⟩
  case erroneous =>
    have hNonzero : w.extractLsb' 0 11 ≠ 0 := fun hZero => hNe (by rw [← opcOf_append_rest w, hOpc, hZero]; rfl)
    cases (runCommand_of_error (c := ⟨w, d⟩) (hUnused w d hOpc hNonzero) s).symm.trans hRun
    exact ⟨rfl, rfl⟩

end Sys2Proof.Machine
end

section
/-!
Errors (R160 to R167): which error a word has, what an erroneous command does, and STATUS.
-/

namespace Sys2Proof.Machine

/-! ### The RSVD check (R63, R162) -/

/-- A row checks OPC and the must-be-zero bits of its opcode, and no other bits. -/
theorem getLsbD_mask_iff : ∀ row ∈ opcodeMap, ∀ j < 16, row.mask.getLsbD j = true ↔
    11 ≤ j ∨ ∃ f ∈ mustBeZero row.opc, f.1 ≤ j ∧ j < f.1 + f.2 := by decide

theorem pattern_eq_shiftLeft_opc : ∀ row ∈ opcodeMap, row.pattern = row.opc.setWidth 16 <<< 11 := by decide

/-- The must-be-zero bits are in their row's mask, and 0 in its pattern. -/
theorem mustBeZero_unused : ∀ row ∈ opcodeMap, ∀ f ∈ mustBeZero row.opc,
    row.mask.extractLsb' f.1 f.2 = BitVec.allOnes f.2 ∧ row.pattern.extractLsb' f.1 f.2 = 0 := by decide

/-- A bit of a field that is 0 is 0. -/
theorem getLsbD_of_extractLsb'_eq_zero {w : CmdWord} {lo len j : Nat} (hZero : w.extractLsb' lo len = 0) (hlo : lo ≤ j)
    (hj : j < lo + len) : w.getLsbD j = false := by
  have hBit := congrArg (·.getLsbD (j - lo)) hZero
  have hLen : j - lo < len := by omega
  simpa [hLen, Nat.add_sub_cancel' hlo] using hBit

/-! ### The RANGE check (R64, R162) -/

/-- The largest IMM5 an operation takes, for the operations that read it. -/
def operationLimit (o : Operation) : Option Nat :=
  match o with
  | .encb => some 8
  | .rddec => some 7
  | .rdsr => some 5
  | _ => none

theorem immLimit_opc : ∀ row ∈ opcodeMap, immLimit row.opc = operationLimit row.operation := by decide

/-! ### The checks in order (R162, R164) -/

section Words

variable {row : OpcodeRow} (hRow : row ∈ opcodeMap) {w : CmdWord}
include hRow

/-- A word of a row's opcode with a must-be-zero bit set is rejected with RSVD. -/
theorem decode_of_hasReservedBit (hOpc : opcOf w = row.opc) (hSet : hasReservedBit w = true) (d : Mask) :
    decode w d = .error .rsvd := by
  obtain ⟨f, hf, hNonzero⟩ := List.any_eq_true.1 hSet
  rw [hOpc] at hf
  obtain ⟨hMask, hPattern⟩ := mustBeZero_unused row hRow f hf
  exact rejectsNonzero_of_unused hRow hMask hPattern w d hOpc (bne_iff_ne.1 hNonzero)

/-- A word of a row's opcode with no must-be-zero bit set is matched by the row. -/
theorem match_of_not_hasReservedBit (hOpc : opcOf w = row.opc) (hClear : ¬ hasReservedBit w = true) :
    w &&& row.mask = row.pattern := by
  have hZero : ∀ f ∈ mustBeZero row.opc, w.extractLsb' f.1 f.2 = 0 := by
    simpa [hasReservedBit, hOpc] using hClear
  apply BitVec.eq_of_getLsbD_eq
  intro j hj
  have hMask := getLsbD_mask_iff row hRow j hj
  rw [pattern_eq_shiftLeft_opc row hRow, ← hOpc, BitVec.getLsbD_and]
  by_cases hHigh : 11 ≤ j
  · have hField : j - 11 < 5 := by omega
    simp [opcOf, hMask.2 (.inl hHigh), hj, Nat.not_lt.2 hHigh, hField, Nat.add_sub_cancel' hHigh]
  · have hUnchecked : (w.getLsbD j && row.mask.getLsbD j) = false := by
      cases hChecked : row.mask.getLsbD j with
      | false => exact Bool.and_false _
      | true =>
        obtain ⟨f, hf, hlo, hlt⟩ := (hMask.1 hChecked).resolve_left hHigh
        rw [getLsbD_of_extractLsb'_eq_zero (hZero f hf) hlo hlt, Bool.false_and]
    rw [hUnchecked]
    simp [Nat.lt_of_not_le hHigh]

/-- A word that passes the RSVD check has at most the error RANGE. -/
theorem errorOf_of_match (hMatch : w &&& row.mask = row.pattern) (d : Mask) :
    errorOf w d = (immLimit row.opc).bind fun limit => if limit < (immOf w).toNat then some .range else none := by
  rw [errorOf, decode_of_match hRow hMatch, immLimit_opc row hRow]
  cases row.operation with
  | encb | rddec | rdsr =>
    simp only [commandOf, operationLimit, Option.bind_some, BitVec.lt_def, BitVec.toNat_ofNat, Nat.reducePow,
      Nat.reduceMod]
    split_ifs <;> rfl
  | _ => rfl

end Words

/-- A word without bit 15 is of some row's opcode. -/
theorem exists_row_of_not_bit15 {w : CmdWord} (h : w.getLsbD 15 = false) : ∃ row ∈ opcodeMap, opcOf w = row.opc := by
  have hRow : ∀ opc : BitVec 5, opc.getLsbD 4 = false → ∃ row ∈ opcodeMap, opc = row.opc := by decide
  exact hRow (opcOf w) ((getLsbD_opcOf_four w).trans h)

/-! ### What a command's error makes it do -/

/-- A command whose word has an error raises it, and that is all (R163). -/
theorem runCommand_of_errorOf {c : Command} {e : ErrCode} (h : errorOf c.op c.data = some e) (s : State) :
    runCommand c s = .next (raiseError e s) := by
  unfold errorOf at h
  split at h
  case h_1 hDecode =>
    cases h
    exact runCommand_of_error hDecode s
  case h_2 bits hDecode =>
    cases h
    rw [runCommand, hDecode]
    rfl
  case h_3 => cases h

/-- A well-formed command that is not a reserved opcode answers without the error indication (R167). -/
theorem exec_err_of_wellFormed {i : Instr} (hWf : i.WellFormed) (hNot : ∀ bits : BitVec 15, i ≠ .reserved bits)
    {s t : State} (h : exec i s = .next t) : t.rsp.err = false := by
  cases i with
  | encb n d => cases (exec_encb_of_le (of_decide_eq_true hWf) d s).symm.trans h; rfl
  | rddec k => cases (exec_rddec_of_le (of_decide_eq_true hWf) s).symm.trans h; rfl
  | rdsr n =>
    obtain ⟨r, hr⟩ := exists_specialReg? (of_decide_eq_true hWf)
    cases (exec_rdsr_of_specialReg? hr s).symm.trans h
    rfl
  | reserved bits => exact absurd rfl (hNot bits)
  | _ => cases h; rfl

/-- A command whose word has no error executes what it decodes to and answers without the error indication (R167). -/
theorem runCommand_of_errorOf_none {c : Command} {s t : State} (hNone : errorOf c.op c.data = none)
    (h : runCommand c s = .next t) : ∃ i, decode c.op c.data = .ok i ∧ exec i s = .next t ∧ t.rsp.err = false := by
  obtain ⟨e, he⟩ | ⟨i, hDecode, hWf, hNot⟩ := errorOf_eq_some_or_decode c.op c.data
  · cases hNone.symm.trans he
  · rw [runCommand, hDecode] at h
    exact ⟨i, hDecode, h, exec_err_of_wellFormed hWf hNot h⟩

/-- Only CLRSTAT and an error write STATUS (R20). -/
theorem exec_keepsStatus {i : Instr} {s t : State} (h : exec i s = .next t) (hNot : i ≠ .clrstat)
    (hErr : t.rsp.err = false) : t.status = s.status := by
  by_contra hNe
  obtain hClr | hSet := (exec_effect h).clrstat_or_error_of_ne hNe
  · exact hNot hClr
  · simp [hErr] at hSet

/-- Settles O5: a row's mask checks the must-be-zero bits, its operation the range, and what neither rejects executes
without error. -/
theorem errorOfAWordIsTheFirstThatApplies : Obligations.ErrorOfAWordIsTheFirstThatApplies := by
  unfold Obligations.ErrorOfAWordIsTheFirstThatApplies
  refine ⟨fun w d => ?first, fun d => ⟨rfl, rfl⟩, fun c s t hNone hRun => ?clean⟩
  case first =>
    split
    case isTrue hTop => rw [errorOf, decode_of_bit15 hTop d]
    case isFalse hTop =>
      obtain ⟨row, hRow, hOpc⟩ := exists_row_of_not_bit15 (Bool.eq_false_of_not_eq_true hTop)
      split
      case isTrue hSet => rw [errorOf, decode_of_hasReservedBit hRow hOpc hSet d]
      case isFalse hClear =>
        rw [errorOf_of_match hRow (match_of_not_hasReservedBit hRow hOpc hClear), hOpc]
        cases immLimit row.opc <;> rfl
  case clean =>
    obtain ⟨i, -, -, hErr⟩ := runCommand_of_errorOf_none hNone hRun
    exact hErr

/-- Settles O32: the command raises its error, which writes STATUS and RSP only. -/
theorem erroneousCommandRecordsItsError : Obligations.ErroneousCommandRecordsItsError := by
  unfold Obligations.ErroneousCommandRecordsItsError
  refine ⟨rfl, rfl, rfl, fun c e s he => ⟨raiseError e s, runCommand_of_errorOf he s, rfl, rfl, rfl, ?_⟩⟩
  exact ⟨fun r _ => readM_raiseError s r e, ⟨rfl, rfl⟩, rfl, ⟨rfl, rfl⟩, rfl, rfl, rfl, rfl, rfl⟩

/-- Settles O35: no error is indicated, so only CLRSTAT moved STATUS. -/
theorem wellFormedCommandsSetNoError : Obligations.WellFormedCommandsSetNoError := by
  unfold Obligations.WellFormedCommandsSetNoError
  intro i s hWf hNot
  obtain ⟨t, ht, hPending, -⟩ := exec_answers i s
  have hErr : t.rsp.err = false := exec_err_of_wellFormed hWf hNot ht
  exact ⟨t, ht, hPending, hErr, fun hClr => exec_keepsStatus ht hClr hErr⟩

/-! ### STATUS is sticky, and changes no execution (R165) -/

/-- After the first error STATUS stays as it is. -/
theorem recordError_of_err {st : Status} (h : st.err = true) (e : ErrCode) : recordError e st = st := by
  obtain ⟨err, ecode⟩ := st
  cases h
  rfl

/-- What a command other than CLRSTAT does to STATUS: it records its error, if it has one. -/
theorem runCommand_status {c : Command} {s t : State} (h : runCommand c s = .next t)
    (hNot : decode c.op c.data ≠ .ok .clrstat) :
    t.status = (errorOf c.op c.data).elim s.status (recordError · s.status) := by
  cases hError : errorOf c.op c.data with
  | some e =>
    cases (runCommand_of_errorOf hError s).symm.trans h
    rfl
  | none =>
    obtain ⟨i, hDecode, hExec, hErr⟩ := runCommand_of_errorOf_none hError h
    exact exec_keepsStatus hExec (fun hClr => hNot (hClr ▸ hDecode)) hErr

theorem specialReg?_eq_status (n : BitVec 5) : specialReg? n = some .status ↔ n = 0 := by
  revert n
  decide

/-- Whatever STATUS was, every command but RDSR 0 does the same to everything else. -/
theorem exec_setStatus {i : Instr} (hNot : i ≠ .rdsr 0) (st : Status) {s t : State} (h : exec i s = .next t) :
    ∃ u, exec i (setStatus st s) = .next u ∧ setStatus t.status u = t := by
  cases i with
  | encb n d =>
    cases (exec_encb n d s).symm.trans h
    refine ⟨_, exec_encb n d _, ?_⟩
    split <;> rfl
  | rddec k =>
    cases (exec_rddec k s).symm.trans h
    refine ⟨_, exec_rddec k _, ?_⟩
    split <;> rfl
  | rdsr n =>
    cases (exec_rdsr n s).symm.trans h
    refine ⟨_, exec_rdsr n _, ?_⟩
    cases hReg : specialReg? n with
    | none => rfl
    | some r =>
      cases r with
      | status => exact absurd (congrArg Instr.rdsr ((specialReg?_eq_status n).1 hReg)) hNot
      | _ => rfl
  | _ =>
    cases h
    exact ⟨_, rfl, rfl⟩

theorem runCommand_setStatus {c : Command} (hNot : decode c.op c.data ≠ .ok (.rdsr 0)) (st : Status) {s t : State}
    (h : runCommand c s = .next t) :
    ∃ u, runCommand c (setStatus st s) = .next u ∧ setStatus t.status u = t := by
  unfold runCommand at h ⊢
  cases hDecode : decode c.op c.data with
  | ok i =>
    rw [hDecode] at h
    exact exec_setStatus (fun hRdsr => hNot (hRdsr ▸ hDecode)) st h
  | error e =>
    rw [hDecode] at h
    cases h
    exact ⟨_, rfl, rfl⟩

/-- Settles O34: a command records its error or keeps STATUS, CLRSTAT and reset clear it, and no execution depends on
it. -/
theorem statusIsStickyAndInert : Obligations.StatusIsStickyAndInert := by
  unfold Obligations.StatusIsStickyAndInert
  refine ⟨fun c s t hRun hNot => ⟨fun hSet => ?sticky, fun hNone => ?kept⟩, fun s t h => ?clrstat,
    fun s t hRst h => ?reset, fun c s st hNot => ?inert⟩
  case sticky =>
    rw [runCommand_status hRun hNot]
    cases errorOf c.op c.data with
    | none => rfl
    | some e => exact recordError_of_err hSet e
  case kept => rw [runCommand_status hRun hNot, hNone, Option.elim_none]
  case clrstat =>
    cases (exec_clrstat s).symm.trans h
    rfl
  case reset =>
    cases (step_reset hRst).symm.trans h
    rfl
  case inert =>
    obtain ⟨t, ht, -⟩ := runCommand_answers c s
    obtain ⟨u, hu, hSame⟩ := runCommand_setStatus hNot st ht
    exact ⟨t, u, ht, hu, hSame⟩

end Sys2Proof.Machine
end

section
/-!
Reset at any edge (R180, R181), and the host that never takes a response (R185).
-/

namespace Sys2Proof.Machine

/-! ### Reset at any edge (R180, R181) -/

/-- The reset values of R20's registers depend on nothing, the build included (R34). -/
theorem registersOf_resetOf (b c : Build) (o q : Offer) (h k : List PortIn) (n m : Nat) :
    registersOf (State.resetOf b o h n) = registersOf (State.resetOf c q k m) := rfl

/-- Settles O51: the edge is a reset edge, and both output signals are cut off by rst (R40, R42). -/
theorem resetEdgeRestoresTheResetState : Obligations.ResetEdgeRestoresTheResetState := by
  unfold Obligations.ResetEdgeRestoresTheResetState
  intro s hRst
  exact ⟨_, step_reset hRst, registersOf_resetOf .., rfl, rfl, resetEdge_build _ _, rfl, rfl⟩

/-! ### A response never taken (R43, R185) -/

/-- What holds of every entry of the schedule and of a host that drives nothing holds of the coming edge's ports. -/
theorem nextPorts_of_forall {P : PortIn → Prop} {s : State} (hIdle : P idlePorts) (hHost : ∀ p ∈ s.host, P p) :
    P (nextPorts s) := by
  cases h : s.host with
  | nil =>
    rw [nextPorts, h]
    exact hIdle
  | cons p ps =>
    rw [nextPorts_of_cons h]
    exact hHost p (by simp [h])

/-- An edge at which a pending response is not taken moves the host's side only (R43). -/
theorem step_untaken {s : State} (hPending : s.rsp.pending = true) (hFree : s.inflight = none)
    (hRst : (nextPorts s).rst = false) (hUntaken : (nextPorts s).rspReady = false) :
    step s = .next { s with host := s.host.tail, offer := offerAfter (nextPorts s) s.offer } := by
  have hRsp : (responseEdge (nextPorts s) (popPorts s)).rsp = s.rsp := by
    simp [responseEdge_rsp _ (popPorts s) hPending, hUntaken]
  calc step s
    _ = .next { s with
          host := s.host.tail
          rsp := (responseEdge (nextPorts s) (popPorts s)).rsp
          offer := offerAfter (nextPorts s) s.offer } := step_response hRst hFree hPending
    _ = _ := by rw [hRsp]

/-- After any number of such edges only the schedule and the host's offer have moved. -/
theorem runEdges_untaken (n : Nat) (s : State) (hPending : s.rsp.pending = true) (hFree : s.inflight = none)
    (hHost : ∀ p ∈ s.host, p.rst = false ∧ p.rspReady = false) :
    ∃ o, runEdges n s = .next { s with host := s.host.drop n, offer := o } := by
  induction n generalizing s with
  | zero => exact ⟨s.offer, rfl⟩
  | succ n ih =>
    obtain ⟨hRst, hUntaken⟩ := nextPorts_of_forall ⟨rfl, rfl⟩ hHost
    have hStep := step_untaken hPending hFree hRst hUntaken
    obtain ⟨o, ho⟩ := ih { s with host := s.host.tail, offer := offerAfter (nextPorts s) s.offer } hPending hFree
      fun p hp => hHost p (List.mem_of_mem_tail hp)
    exact ⟨o, by rw [runEdges_succ hStep, ho, List.drop_tail]⟩

/-- Settles O52: only the host's side has moved, and cmd_ready is 0 while the response is pending (R42). -/
theorem untakenResponseBlocksTheUnit : Obligations.UntakenResponseBlocksTheUnit := by
  unfold Obligations.UntakenResponseBlocksTheUnit
  intro n s hPending hFree hHost
  obtain ⟨o, hRun⟩ := runEdges_untaken n s hPending hFree hHost
  exact ⟨_, hRun, rfl, hFree, rfl, by simp [cmdReady, hPending]⟩

end Sys2Proof.Machine
end

section
/-!
The listed command words (95_test_vectors.md sections 2.3 and 2.6).
-/

namespace Sys2Proof.Machine

/-- Settles O1: a word without an error is its command's encoding; of the others, 0x07FF has a must-be-zero bit set,
0x100F is ENCB with a count above 8, and the two reserved words have bit 15 set. -/
theorem listedWordsDecodeAsListed : Obligations.ListedWordsDecodeAsListed := by
  unfold Obligations.ListedWordsDecodeAsListed
  intro d
  have hLegal (i : Instr) (hWf : i.WellFormed) : decode (encodeWord i) d = .ok (i.withData d) := decode_encodeWord hWf d
  have hRsvd : decode 0x07FF d = .error .rsvd :=
    decode_of_hasReservedBit (row := ⟨.nop, 0x00, 0x0000, 0xFFFF⟩) (by decide) rfl rfl d
  have hRange : decode 0x100F d = .error .range :=
    decode_of_match (row := ⟨.encb, 0x02, 0x1000, 0xFFE0⟩) (by decide) rfl d
  exact ⟨hLegal .nop rfl, hRsvd, hLegal .encclr rfl, hLegal (.encb 8 d) rfl, hRange, hLegal (.encst .m3) rfl,
    hLegal (.ldm .m3 d) rfl, hLegal (.rdm .m3) rfl, hLegal (.and .m2 .m0 .m1) rfl, hLegal (.or .m3 .m3 .m3) rfl,
    hLegal (.xor .m2 .m0 .m1) rfl, hLegal (.not .m3 .m1) rfl, hLegal (.andn .m3 .m1 .m0) rfl, hLegal (.card .m3) rfl,
    hLegal (.dec .m3) rfl, hLegal (.rddec 7) rfl, hLegal (.rdsr 5) rfl, hLegal .clrstat rfl,
    decode_of_bit15 rfl d, decode_of_bit15 rfl d⟩

end Sys2Proof.Machine
end
